-- ==== Sys2Proof/Word.lean ====
section
/-! DEFINITION. The word types of the block (spec/00_scope.md R3, R4: every value is an unsigned bit
vector), one transaction of the command channel (spec/30_encoding.md R36), and the array type of `MT_W`. -/

namespace Sys2Proof

/-- The width of the LCG registers, of `cmd.op` and of `rsp.rv` (R3). -/
abbrev Word64 := BitVec 64

/-- The width of an MT state word and of the command word `cmd.cw` (R3). -/
abbrev Word32 := BitVec 32

/-- The width of the index field `cmd.idx` and of `MT_IDX` (R37, R15). -/
abbrev Index := BitVec 10

abbrev Byte := BitVec 8

/-- `MT_W`: 624 words of 32 bits (spec/10_state.md R14). -/
abbrev MtWords := Vector Word32 624

/-- The array whose word `i` is `f i`. -/
def tabulate (f : Nat → Word32) : MtWords := ⟨⟨(List.range 624).map f⟩, by simp⟩

/-- One command as it stands on the command channel: `cmd.cw` and `cmd.op` (R36). -/
structure Command where
  cw : Word32
  op : Word64
deriving DecidableEq, Repr

end Sys2Proof
end

