-- ==== Sys2Proof/Config.lean ====
section
/-! DEFINITION. What the spec leaves open and the model takes as a parameter. There is one such value:
the contents of `MT_W` after a reset. -/

namespace Sys2Proof

/-- `MT_W_RESET` (spec/00_scope.md R3, spec/10_state.md R14): `Config.mtWReset n i` is word `i` after
reset number `n`, "under no law" and fresh at every reset (spec/70_reset_and_hazards.md R117).
A FREE VALUE: nothing in Lean can evaluate it (log entry 1). -/
opaque Config.mtWReset : Nat → Nat → Word32

/-- All 624 words after reset number `n`. -/
def Config.mtWordsAfterReset (n : Nat) : MtWords := tabulate (Config.mtWReset n)

end Sys2Proof
end

