-- ==== Sys2Proof/Machine/State.lean ====
section
/-! DEFINITION. The state of one block instance (spec/10_state.md R7), what stands on its two channels
(spec/30_encoding.md R36), the reasons a step can stop, and the state after reset
(spec/70_reset_and_hazards.md R116). -/

namespace Sys2Proof.Machine

/-- One response as it stands on the response channel: `rsp.st` and `rsp.rv` (R36, R47). -/
structure Response where
  st : BitVec 4
  rv : Word64
deriving DecidableEq, Repr

/-- The named status codes (spec/60_exceptions.md R103); codes 8 to 15 are reserved and have no name. -/
inductive Status where
  | ok
  | insufficientSamples
  | degenerateSequence
  | noModularInverse
  | invalidParameters
  | twistBoundaryMismatch
  | illegalCommand
  | notReady
deriving DecidableEq, Repr

/-- What the host can do to the block (spec/70_reset_and_hazards.md R128). A read command is an `issue`. -/
inductive HostEvent where
  /-- The host offers a command on the command channel. -/
  | issue (c : Command)
  /-- The host takes the pending response. -/
  | take
  /-- `rst` is applied (R116); after an `issue` whose response was not taken it is a reset that arrives
  while the command is in flight (R117). -/
  | reset
deriving DecidableEq, Repr

/-- The first eight fields are the architectural state (R7). The last four stand for the channels and the
host: `rsp` is the pending response, `host` what the host will do next, `taken` the responses it has taken,
oldest first (R127), `resets` the number of resets so far, which picks the next `MT_W_RESET` (R117). -/
structure State where
  lcgM : Word64
  lcgA : Word64
  lcgC : Word64
  lcgX : Word64
  lcgRdy : Bool
  mtW : MtWords
  mtIdx : Index
  mtRdy : Bool
  rsp : Option Response
  host : List HostEvent
  taken : List Response
  resets : Nat
deriving DecidableEq, Repr

/-- Stops that no reachable state meets: the spec has no fault that stops the block (R113, R127). -/
inductive Fault where
  /-- Raised by `LCG.NEXT` with `LCG_RDY = 1` and `LCG_M = 0`, which R13 says never holds: `LcgStep` is
  defined for `m ≥ 1` only (R60). Safe. Log entry 4. -/
  | lcgModulusZero
  /-- Raised by `MT.NEXT` with `MT_IDX` in 625..1023, values that are never held (R15, R16): there is no
  such word. Safe. Log entry 4. -/
  | mtIndexOutOfRange
deriving DecidableEq, Repr

inductive Refusal where
  /-- Raised by an arm of `exec` that has no meaning yet. Safe. -/
  | notModelled (mnemonic : String)
  /-- Raised by the command channel when the host issues a command while a response is pending: "a model
  gives no meaning to overlapping commands" (R121; spec/93_implementation_defined.md U20). Safe. Log entry 5. -/
  | overlappingCommand
  /-- Raised by the response channel when the host takes a response and none is pending. Safe. Log entry 6. -/
  | noResponsePending
deriving DecidableEq, Repr

/-- The machine right after reset (R116), before the host has done anything. -/
def State.reset : State where
  lcgM := 0
  lcgA := 0
  lcgC := 0
  lcgX := 0
  lcgRdy := false
  mtW := Config.mtWordsAfterReset 0
  mtIdx := 624
  mtRdy := false
  rsp := none
  host := []
  taken := []
  resets := 1

end Sys2Proof.Machine
end

