-- ==== Sys2Proof/Machine/Flags.lean ====
section
/-! DEFINITION. The two ready flags, the `STATUS` view of them, and the numbers of the status codes. The
block has no other flag (spec/10_state.md R21). -/

namespace Sys2Proof.Machine

/-- `STATUS = {MT_RDY, LCG_RDY}`, zero-extended (R19, spec/43_sys.md R101). -/
def statusView (s : State) : Word64 :=
  (BitVec.ofBool s.mtRdy ++ BitVec.ofBool s.lcgRdy).zeroExtend 64

/-- A successful `LCG.INIT` constructs the LCG (R12). -/
def setLcgReady (s : State) : State := { s with lcgRdy := true }

/-- Every parameter load un-constructs the LCG (R12, spec/70_reset_and_hazards.md R122). -/
def clearLcgReady (s : State) : State := { s with lcgRdy := false }

/-- A successful `MT.SEED` or `MT.LDI` constructs the MT state (R18). -/
def setMtReady (s : State) : State := { s with mtRdy := true }

/-- The number of a status code (spec/60_exceptions.md R103). -/
def Status.code : Status → BitVec 4
  | .ok => 0
  | .insufficientSamples => 1
  | .degenerateSequence => 2
  | .noModularInverse => 3
  | .invalidParameters => 4
  | .twistBoundaryMismatch => 5
  | .illegalCommand => 6
  | .notReady => 7

end Sys2Proof.Machine
end

