-- ==== Sys2Proof/Syntax.lean ====
section
/-! DEFINITION. The commands of the block, one constructor per row of spec/opcode_table.json
(spec/30_encoding.md R42). A command of operand class `none` carries no operand, since `cmd.op` is ignored
(R40); every other command carries the whole 64-bit `cmd.op`, since its check belongs to the command's
meaning (R43 step 5). A format-X command carries its 10-bit index field. -/

namespace Sys2Proof

inductive Instr where
  | sysRdstat
  | lcgLdm (op : Word64)
  | lcgLda (op : Word64)
  | lcgLdc (op : Word64)
  | lcgInit (op : Word64)
  | lcgRdm
  | lcgRda
  | lcgRdc
  | lcgRdx
  | lcgNext
  | mtSeed (op : Word64)
  | mtLdw (idx : Index) (op : Word64)
  | mtLdu (idx : Index) (op : Word64)
  | mtLdi (op : Word64)
  | mtRdw (idx : Index)
  | mtRdi
  | mtTwist
  | mtNext
  | tmpTemper (op : Word64)
  | tmpUntemper (op : Word64)
deriving DecidableEq, Repr

end Sys2Proof
end

