-- ==== Sys2Proof/WellFormed.lean ====
section
/-! DEFINITION. Which terms of `Instr` stand for a legal command word: the index field of a format-X
command is at most 623 (spec/30_encoding.md R39, spec/20_memory.md R27). No other field has a law that
belongs to the command word: every 64-bit operand may be sent (R45). -/

namespace Sys2Proof

/-- The index addresses one of the 624 words. -/
def indexLegal (idx : Index) : Bool := idx.toNat < 624

def Instr.wf : Instr → Bool
  | .sysRdstat => true
  | .lcgLdm _ => true
  | .lcgLda _ => true
  | .lcgLdc _ => true
  | .lcgInit _ => true
  | .lcgRdm => true
  | .lcgRda => true
  | .lcgRdc => true
  | .lcgRdx => true
  | .lcgNext => true
  | .mtSeed _ => true
  | .mtLdw idx _ => indexLegal idx
  | .mtLdu idx _ => indexLegal idx
  | .mtLdi _ => true
  | .mtRdw idx => indexLegal idx
  | .mtRdi => true
  | .mtTwist => true
  | .mtNext => true
  | .tmpTemper _ => true
  | .tmpUntemper _ => true

end Sys2Proof
end

