-- ==== Sys2Proof/Decode.lean ====
section
/-! DEFINITION. The decoder of command words, total, rejecting by name, and after it the encoder
(spec/30_encoding.md R37 to R46), and the names of the commands (R42, R48). A command is a number, not
bytes (spec/20_memory.md R31). -/

namespace Sys2Proof

/-! ### The fields of a command word (R37) -/

/-- `OPC`, bits 31:24. -/
def Command.opc (c : Command) : BitVec 8 := c.cw.extractLsb' 24 8

/-- `RSV`, bits 23:10. -/
def Command.rsv (c : Command) : BitVec 14 := c.cw.extractLsb' 10 14

/-- `IDX`, bits 9:0. -/
def Command.idx (c : Command) : Index := c.cw.extractLsb' 0 10

/-- The two command-word formats (R38, R39). -/
inductive Format where
  | N
  | X
deriving DecidableEq, Repr

/-- Why a command word spells no command (R44); each of them is `IllegalCommand` (R105). -/
inductive DecodeError where
  /-- `OPC` is not one of the twenty values of R42. -/
  | unassignedOpcode
  /-- `RSV` is not zero. -/
  | reservedField
  /-- Format N with a non-zero `IDX`. -/
  | indexNotZero
  /-- Format X with `IDX ≥ 624`. -/
  | indexOutOfRange
deriving DecidableEq, Repr

/-- The opcode map (R42): the format of an assigned opcode and the command it spells. -/
def select (opc : BitVec 8) (idx : Index) (op : Word64) : Option (Format × Instr) :=
  match opc.toNat with
  | 0x01 => some (.N, .sysRdstat)
  | 0x10 => some (.N, .lcgLdm op)
  | 0x11 => some (.N, .lcgLda op)
  | 0x12 => some (.N, .lcgLdc op)
  | 0x13 => some (.N, .lcgInit op)
  | 0x14 => some (.N, .lcgRdm)
  | 0x15 => some (.N, .lcgRda)
  | 0x16 => some (.N, .lcgRdc)
  | 0x17 => some (.N, .lcgRdx)
  | 0x18 => some (.N, .lcgNext)
  | 0x20 => some (.N, .mtSeed op)
  | 0x21 => some (.X, .mtLdw idx op)
  | 0x22 => some (.X, .mtLdu idx op)
  | 0x23 => some (.N, .mtLdi op)
  | 0x24 => some (.X, .mtRdw idx)
  | 0x25 => some (.N, .mtRdi)
  | 0x26 => some (.N, .mtTwist)
  | 0x28 => some (.N, .mtNext)
  | 0x30 => some (.N, .tmpTemper op)
  | 0x31 => some (.N, .tmpUntemper op)
  | _ => none

/-- Steps 1 to 3 of R43, in that order. They look only at the command word. -/
def decode (c : Command) : Except DecodeError Instr :=
  match select c.opc c.idx c.op with
  | none => .error .unassignedOpcode
  | some (format, i) =>
    if c.rsv ≠ 0 then .error .reservedField
    else match format with
      | .N => if c.idx ≠ 0 then .error .indexNotZero else .ok i
      | .X => if indexLegal c.idx then .ok i else .error .indexOutOfRange

/-- The command whose bits are `w`, as spec/opcode_table.json numbers them: `cmd.cw` is bits 31:0, `cmd.op`
follows as bits 95:32, and every bit from `nbits` on is 0. -/
def tableCommand (nbits w : Nat) : Command :=
  let bits := w % 2 ^ nbits
  ⟨BitVec.ofNat 32 bits, BitVec.ofNat 64 (bits / 2 ^ 32)⟩

/-- The instruction the decoder reads from a table word. -/
def decodeTableWord (nbits w : Nat) : Option Instr :=
  match decode (tableCommand nbits w) with
  | .ok i => some i
  | .error _ => none

/-! ### The encoder -/

/-- `OPC` of a command (R42). -/
def Instr.opcode : Instr → BitVec 8
  | .sysRdstat => 0x01
  | .lcgLdm _ => 0x10
  | .lcgLda _ => 0x11
  | .lcgLdc _ => 0x12
  | .lcgInit _ => 0x13
  | .lcgRdm => 0x14
  | .lcgRda => 0x15
  | .lcgRdc => 0x16
  | .lcgRdx => 0x17
  | .lcgNext => 0x18
  | .mtSeed _ => 0x20
  | .mtLdw _ _ => 0x21
  | .mtLdu _ _ => 0x22
  | .mtLdi _ => 0x23
  | .mtRdw _ => 0x24
  | .mtRdi => 0x25
  | .mtTwist => 0x26
  | .mtNext => 0x28
  | .tmpTemper _ => 0x30
  | .tmpUntemper _ => 0x31

/-- The format of a command (R38, R39). -/
def Instr.format : Instr → Format
  | .mtLdw _ _ => .X
  | .mtLdu _ _ => .X
  | .mtRdw _ => .X
  | .sysRdstat => .N
  | .lcgLdm _ => .N
  | .lcgLda _ => .N
  | .lcgLdc _ => .N
  | .lcgInit _ => .N
  | .lcgRdm => .N
  | .lcgRda => .N
  | .lcgRdc => .N
  | .lcgRdx => .N
  | .lcgNext => .N
  | .mtSeed _ => .N
  | .mtLdi _ => .N
  | .mtRdi => .N
  | .mtTwist => .N
  | .mtNext => .N
  | .tmpTemper _ => .N
  | .tmpUntemper _ => .N

/-- The four units (R41). -/
inductive BlockUnit where
  | sys
  | lcg
  | mt
  | tmp
deriving DecidableEq, Repr

/-- The unit that `OPC[7:4]` selects (R41). -/
def Instr.blockUnit : Instr → BlockUnit
  | .sysRdstat => .sys
  | .lcgLdm _ => .lcg
  | .lcgLda _ => .lcg
  | .lcgLdc _ => .lcg
  | .lcgInit _ => .lcg
  | .lcgRdm => .lcg
  | .lcgRda => .lcg
  | .lcgRdc => .lcg
  | .lcgRdx => .lcg
  | .lcgNext => .lcg
  | .mtSeed _ => .mt
  | .mtLdw _ _ => .mt
  | .mtLdu _ _ => .mt
  | .mtLdi _ => .mt
  | .mtRdw _ => .mt
  | .mtRdi => .mt
  | .mtTwist => .mt
  | .mtNext => .mt
  | .tmpTemper _ => .tmp
  | .tmpUntemper _ => .tmp

/-- The value of `OPC[7:4]` for a unit; 4 to 15 select no unit (R41). -/
def BlockUnit.number : BlockUnit → BitVec 4
  | .sys => 0
  | .lcg => 1
  | .mt => 2
  | .tmp => 3

/-- The `IDX` field of a command: its index in format X, zero in format N (R38, R39). -/
def Instr.idxField : Instr → Index
  | .mtLdw idx _ => idx
  | .mtLdu idx _ => idx
  | .mtRdw idx => idx
  | .sysRdstat => 0
  | .lcgLdm _ => 0
  | .lcgLda _ => 0
  | .lcgLdc _ => 0
  | .lcgInit _ => 0
  | .lcgRdm => 0
  | .lcgRda => 0
  | .lcgRdc => 0
  | .lcgRdx => 0
  | .lcgNext => 0
  | .mtSeed _ => 0
  | .mtLdi _ => 0
  | .mtRdi => 0
  | .mtTwist => 0
  | .mtNext => 0
  | .tmpTemper _ => 0
  | .tmpUntemper _ => 0

/-- `cmd.op` as the assembler emits it: the operand, and 0 for class `none` (R48). -/
def Instr.operand : Instr → Word64
  | .lcgLdm op => op
  | .lcgLda op => op
  | .lcgLdc op => op
  | .lcgInit op => op
  | .mtSeed op => op
  | .mtLdw _ op => op
  | .mtLdu _ op => op
  | .mtLdi op => op
  | .tmpTemper op => op
  | .tmpUntemper op => op
  | .sysRdstat => 0
  | .lcgRdm => 0
  | .lcgRda => 0
  | .lcgRdc => 0
  | .lcgRdx => 0
  | .lcgNext => 0
  | .mtRdw _ => 0
  | .mtRdi => 0
  | .mtTwist => 0
  | .mtNext => 0

/-- The command word with the three fields of R37, `RSV` zero. -/
def packWord (opc : BitVec 8) (idx : Index) : Word32 := opc ++ (0 : BitVec 14) ++ idx

/-- The words of a command (R37 to R39, R48). -/
def encode (i : Instr) : Command := ⟨packWord i.opcode i.idxField, i.operand⟩

/-- The mnemonic of a command (R42). -/
def Instr.mnemonic : Instr → String
  | .sysRdstat => "SYS.RDSTAT"
  | .lcgLdm _ => "LCG.LDM"
  | .lcgLda _ => "LCG.LDA"
  | .lcgLdc _ => "LCG.LDC"
  | .lcgInit _ => "LCG.INIT"
  | .lcgRdm => "LCG.RDM"
  | .lcgRda => "LCG.RDA"
  | .lcgRdc => "LCG.RDC"
  | .lcgRdx => "LCG.RDX"
  | .lcgNext => "LCG.NEXT"
  | .mtSeed _ => "MT.SEED"
  | .mtLdw _ _ => "MT.LDW"
  | .mtLdu _ _ => "MT.LDU"
  | .mtLdi _ => "MT.LDI"
  | .mtRdw _ => "MT.RDW"
  | .mtRdi => "MT.RDI"
  | .mtTwist => "MT.TWIST"
  | .mtNext => "MT.NEXT"
  | .tmpTemper _ => "TMP.TEMPER"
  | .tmpUntemper _ => "TMP.UNTEMPER"

end Sys2Proof
end

