-- ==== Sys2Proof/Machine/Operands.lean ====
section
/-! DEFINITION. The four operand classes of `cmd.op` (spec/30_encoding.md R40) and the value each class
reads from it. There is no sign extension, scaling or shifting of any operand. -/

namespace Sys2Proof

inductive OperandClass where
  | none
  | u64
  | u32
  | idx625
deriving DecidableEq, Repr

end Sys2Proof

namespace Sys2Proof.Machine

/-- The operand class of a command (R40, R42). -/
def operandClass : Instr → OperandClass
  | .sysRdstat => .none
  | .lcgLdm _ => .u64
  | .lcgLda _ => .u64
  | .lcgLdc _ => .u64
  | .lcgInit _ => .u64
  | .lcgRdm => .none
  | .lcgRda => .none
  | .lcgRdc => .none
  | .lcgRdx => .none
  | .lcgNext => .none
  | .mtSeed _ => .u32
  | .mtLdw _ _ => .u32
  | .mtLdu _ _ => .u32
  | .mtLdi _ => .idx625
  | .mtRdw _ => .none
  | .mtRdi => .none
  | .mtTwist => .none
  | .mtNext => .none
  | .tmpTemper _ => .u32
  | .tmpUntemper _ => .u32

/-- Class `u32`: `cmd.op[63:32]` must be zero, the value is `cmd.op[31:0]`. -/
def operandU32 (op : Word64) : Option Word32 :=
  if op.extractLsb' 32 32 = 0 then some (op.extractLsb' 0 32) else none

/-- Class `idx625`: all 64 bits are compared with 624, the value is `cmd.op[9:0]`
(spec/41_mt_engine.md R85). -/
def operandIdx625 (op : Word64) : Option Index :=
  if op.toNat ≤ 624 then some (op.extractLsb' 0 10) else none

end Sys2Proof.Machine
end

