-- ==== Sys2Proof/Machine/Ops.lean ====
section
/-! DEFINITION. The operations every command's meaning is written with: the response, the one failure
mechanism, the word array, the operand and readiness checks, and what `rst` and taking a response do. -/

namespace Sys2Proof.Machine

/-- What a command answers. -/
abbrev Result := Host.Outcome State Fault Refusal

/-! ### The response channel -/

/-- `respond(st, rv)` (spec/00_scope.md R5): the command ends with this response pending. -/
def respond (st : Status) (rv : Word64) (s : State) : Result :=
  .next { s with rsp := some ⟨st.code, rv⟩ }

/-- `raise <Kind>` (R5): the block's only form of exception (spec/60_exceptions.md R102). Nothing is saved and
control goes nowhere: the response carries the code and the value 0, and no architectural state is changed
(R109). There is nothing to return from (R110). -/
def raise (kind : Status) (s : State) : Result := respond kind 0 s

/-- The host takes the pending response (spec/70_reset_and_hazards.md R121, R128). -/
def takeResponse (s : State) : Result :=
  match s.rsp with
  | some r => .next { s with rsp := none, taken := s.taken ++ [r] }
  | none => .refused .noResponsePending

/-! ### Reset -/

/-- `rst` (R116): every register takes its reset value, `MT_W` is a fresh `MT_W_RESET`, no response is
pending (R117). The host's own record and plans are not the block's and stay. -/
def applyReset (s : State) : State :=
  { s with
    lcgM := 0, lcgA := 0, lcgC := 0, lcgX := 0, lcgRdy := false
    mtW := Config.mtWordsAfterReset s.resets, mtIdx := 624, mtRdy := false
    rsp := none, resets := s.resets + 1 }

/-! ### The word array, the one address space (spec/20_memory.md R26) -/

/-- `MemRead(i, 4)`: the word `MT_W[i]`; an index of 624 or more addresses nothing (R27). -/
def memRead (i : Index) (s : State) : Option Word32 := s.mtW[i.toNat]?

/-- `MemWrite(i, 4, v)`: `MT_W[i] <- v`; an index of 624 or more addresses nothing (R27). -/
def memWrite (i : Index) (v : Word32) (s : State) : State :=
  { s with mtW := s.mtW.setIfInBounds i.toNat v }

/-! ### The checks of spec/30_encoding.md R43 -/

/-- Step 3, format X: an index of 624 or more is an illegal command word. -/
def whenIndexLegal (idx : Index) (s : State) (body : Result) : Result :=
  if indexLegal idx then body else raise .illegalCommand s

/-- Step 4 for the LCG unit. -/
def whenLcgReady (s : State) (body : Result) : Result :=
  if s.lcgRdy then body else raise .notReady s

/-- Step 4 for the MT unit. -/
def whenMtReady (s : State) (body : Result) : Result :=
  if s.mtRdy then body else raise .notReady s

/-- Step 5, class `u32`. -/
def withU32 (op : Word64) (s : State) (body : Word32 → Result) : Result :=
  match operandU32 op with
  | some v => body v
  | none => raise .invalidParameters s

/-- Step 5, class `idx625`. -/
def withIdx625 (op : Word64) (s : State) (body : Index → Result) : Result :=
  match operandIdx625 op with
  | some i => body i
  | none => raise .invalidParameters s

end Sys2Proof.Machine
end

