-- ==== Sys2Proof/Machine/Lcg.lean ====
section
/-! DEFINITION. The LCG unit (spec/40_lcg.md). -/

namespace Sys2Proof.Machine

/-- `LcgStep(m, a, c, x)` for `m ≥ 1` (R60): the product and the sum are exact, with no truncation, and only
then reduced (R61). -/
def lcgStep (m a c x : Word64) : Word64 :=
  BitVec.ofNat 64 ((a.toNat * x.toNat + c.toNat) % m.toNat)

/-! ### Construction -/

/-- `LCG.LDM` (R63): any 64-bit value is stored, 0 included. -/
def execLcgLdm (op : Word64) (s : State) : Result :=
  respond .ok 0 (clearLcgReady { s with lcgM := op })

/-- `LCG.LDA` (R64). -/
def execLcgLda (op : Word64) (s : State) : Result :=
  respond .ok 0 (clearLcgReady { s with lcgA := op })

/-- `LCG.LDC` (R65). -/
def execLcgLdc (op : Word64) (s : State) : Result :=
  respond .ok 0 (clearLcgReady { s with lcgC := op })

/-- `LCG.INIT` (R66). -/
def execLcgInit (op : Word64) (s : State) : Result :=
  if s.lcgM = 0 ∨ op.toNat ≥ s.lcgM.toNat then raise .invalidParameters s
  else respond .ok 0 (setLcgReady { s with lcgX := op })

/-! ### Register reads -/

/-- `LCG.RDM` (R67). -/
def execLcgRdm (s : State) : Result := respond .ok s.lcgM s

/-- `LCG.RDA` (R68). -/
def execLcgRda (s : State) : Result := respond .ok s.lcgA s

/-- `LCG.RDC` (R69). -/
def execLcgRdc (s : State) : Result := respond .ok s.lcgC s

/-- `LCG.RDX` (R70). -/
def execLcgRdx (s : State) : Result := respond .ok s.lcgX s

/-! ### State advance -/

/-- `LCG.NEXT` (R71): the output is the post-update state (R73). A ready unit with modulus 0, which R13 rules
out, stops by name. -/
def execLcgNext (s : State) : Result :=
  whenLcgReady s <|
    if s.lcgM = 0 then .fault .lcgModulusZero
    else
      let v := lcgStep s.lcgM s.lcgA s.lcgC s.lcgX
      respond .ok v { s with lcgX := v }

end Sys2Proof.Machine
end

