-- ==== Sys2Proof/Machine/Tempering.lean ====
section
/-! DEFINITION. The tempering function and its inverse (spec/41_mt_engine.md R75 to R80,
spec/42_untemper.md R91 to R95). `>>>` is the logical right shift and `<<<` the left shift truncated to
32 bits (spec/00_scope.md R4). -/

namespace Sys2Proof.Machine

/-! ### The tempering constants (R75) -/

def temperU : Nat := 11
def temperD : Word32 := 0xFFFFFFFF
def temperS : Nat := 7
def temperB : Word32 := 0x9D2C5680
def temperT : Nat := 15
def temperC : Word32 := 0xEFC60000
def temperL : Nat := 18

/-! ### Tempering -/

/-- R76. -/
def T1 (v : Word32) : Word32 := v ^^^ ((v >>> temperU) &&& temperD)

/-- R77. -/
def T2 (v : Word32) : Word32 := v ^^^ ((v <<< temperS) &&& temperB)

/-- R78. -/
def T3 (v : Word32) : Word32 := v ^^^ ((v <<< temperT) &&& temperC)

/-- R79: the last step has no mask. -/
def T4 (v : Word32) : Word32 := v ^^^ (v >>> temperL)

/-- R80. -/
def temper (v : Word32) : Word32 := T4 (T3 (T2 (T1 v)))

/-! ### The two generic inversions (R91, which holds section 2 of its file) -/

/-- The number of rounds `J = ceil(32 / k) − 1`. -/
def inversionRounds (k : Nat) : Nat := (32 + k - 1) / k - 1

/-- `v_j` of the word-wide right inversion: `v_0 = y`, `v_(j+1) = y ^ ((v_j >> k) & mask)`. -/
def invRightRound (y : Word32) (k : Nat) (mask : Word32) : Nat → Word32
  | 0 => y
  | j + 1 => y ^^^ ((invRightRound y k mask j >>> k) &&& mask)

/-- `InvRight(y, k, mask)` for `1 ≤ k ≤ 31`: the `v` with `v ^ ((v >> k) & mask) = y`, "`k` bits at a time". -/
def invRight (y : Word32) (k : Nat) (mask : Word32) : Word32 :=
  invRightRound y k mask (inversionRounds k)

/-- `v_j` of the word-wide left inversion. -/
def invLeftRound (y : Word32) (k : Nat) (mask : Word32) : Nat → Word32
  | 0 => y
  | j + 1 => y ^^^ ((invLeftRound y k mask j <<< k) &&& mask)

/-- `InvLeft(y, k, mask)` for `1 ≤ k ≤ 31`: the `v` with `v ^ ((v << k) & mask) = y`. -/
def invLeft (y : Word32) (k : Nat) (mask : Word32) : Word32 :=
  invLeftRound y k mask (inversionRounds k)

/-- `v` with bit `i` set to `b`. -/
def withBit (v : Word32) (i : Nat) (b : Bool) : Word32 :=
  (v &&& ~~~(1#32 <<< i)) ||| (BitVec.ofBool b).zeroExtend 32 <<< i

/-- One pass of the right loop: `v[i] <- y[i] ^ (if i + k <= 31 then (v[i + k] & mask[i]) else 0)`. -/
def invRightBit (y : Word32) (k : Nat) (mask v : Word32) (i : Nat) : Word32 :=
  withBit v i (y.getLsbD i ^^ (if i + k ≤ 31 then v.getLsbD (i + k) && mask.getLsbD i else false))

/-- `InvRight` bit by bit, `i` from 31 down to 0, "from the most significant end inward". -/
def invRightBits (y : Word32) (k : Nat) (mask : Word32) : Word32 :=
  (List.range 32).reverse.foldl (invRightBit y k mask) 0

/-- One pass of the left loop: `v[i] <- y[i] ^ (if i - k >= 0 then (v[i - k] & mask[i]) else 0)`. -/
def invLeftBit (y : Word32) (k : Nat) (mask v : Word32) (i : Nat) : Word32 :=
  withBit v i (y.getLsbD i ^^ (if k ≤ i then v.getLsbD (i - k) && mask.getLsbD i else false))

/-- `InvLeft` bit by bit, `i` from 0 to 31, "from the least significant end inward". -/
def invLeftBits (y : Word32) (k : Nat) (mask : Word32) : Word32 :=
  (List.range 32).foldl (invLeftBit y k mask) 0

/-! ### The four inverse steps -/

/-- R91, the inverse of `T4`. -/
def U4 (y : Word32) : Word32 := invRight y temperL 0xFFFFFFFF

/-- R92, the inverse of `T3`. -/
def U3 (y : Word32) : Word32 := invLeft y temperT temperC

/-- R93, the inverse of `T2`. -/
def U2 (y : Word32) : Word32 := invLeft y temperS temperB

/-- R94, the inverse of `T1`. -/
def U1 (y : Word32) : Word32 := invRight y temperU temperD

/-- R95: the four steps undone in exact reverse order. -/
def untemper (y : Word32) : Word32 := U1 (U2 (U3 (U4 y)))

end Sys2Proof.Machine
end

