-- ==== Sys2Proof/Machine/Twister.lean ====
section
/-! DEFINITION. The twist and the seeding recurrence (spec/41_mt_engine.md R75, R81, R82). The twist updates
the 624 words in place, in ascending order (spec/90_conflicts.md C2). -/

namespace Sys2Proof.Machine

/-! ### The constants (R75) -/

def mtM : Nat := 397
def upperMask : Word32 := 0x80000000
def lowerMask : Word32 := 0x7FFFFFFF
def matrixA : Word32 := 0x9908B0DF
def seedMultiplier : Word32 := 1812433253

/-! ### The twist (R81) -/

/-- `G(hi, lo)`. -/
def twistG (hi lo : Word32) : Word32 :=
  let y := (hi &&& upperMask) ||| (lo &&& lowerMask)
  (y >>> 1) ^^^ (if y.getLsbD 0 then matrixA else 0)

/-- One pass of the loop: `MT_W[i] <- MT_W[(i + 397) mod 624] ^ G(MT_W[i], MT_W[(i + 1) mod 624])`, each read
seeing every earlier write. -/
def twistPass (w : MtWords) (i : Fin 624) : MtWords :=
  w.set i.val
    (w[(i.val + mtM) % 624]'(Nat.mod_lt _ (by decide)) ^^^
      twistG (w[i.val]'i.isLt) (w[(i.val + 1) % 624]'(Nat.mod_lt _ (by decide))))
    i.isLt

/-- The first `n` passes, `i` from 0 to `n − 1`. Irreducible, so that no unification runs 624 passes. -/
@[irreducible] def twistPasses (w : MtWords) : (n : Nat) → n ≤ 624 → MtWords
  | 0, _ => w
  | n + 1, h => twistPass (twistPasses w n (Nat.le_of_succ_le h)) ⟨n, h⟩

/-- `Twist()`: `for i from 0 to 623`. -/
def twist (w : MtWords) : MtWords := twistPasses w 624 (Nat.le_refl 624)

/-! ### Seeding (R82) -/

/-- The next seeded word from word `i − 1`, modulo 2^32. -/
def seedNext (i : Nat) (prev : Word32) : Word32 :=
  seedMultiplier * (prev ^^^ (prev >>> 30)) + BitVec.ofNat 32 i

/-- `S[i]`. -/
def seedWord (seed : Word32) : Nat → Word32
  | 0 => seed
  | i + 1 => seedNext (i + 1) (seedWord seed i)

/-- `SeedWords(seed)`: the 624 words `S[0..623]`. -/
def seedWords (seed : Word32) : MtWords := tabulate (seedWord seed)

end Sys2Proof.Machine
end

