-- ==== Sys2Proof/Machine/Mt.lean ====
section
/-! DEFINITION. The MT unit (spec/41_mt_engine.md, spec/42_untemper.md R98). -/

namespace Sys2Proof.Machine

/-- The twist refills all 624 words and the index goes to 0 (R88, R89). -/
def refill (s : State) : State := { s with mtW := twist s.mtW, mtIdx := 0 }

/-- `if MT_IDX = 624 then Twist(); MT_IDX <- 0` (R89). -/
def refillIfSpent (s : State) : State := if s.mtIdx = 624 then refill s else s

/-- `MT.SEED` (R83). -/
def execMtSeed (op : Word64) (s : State) : Result :=
  withU32 op s fun seed =>
    respond .ok 0 (setMtReady { s with mtW := seedWords seed, mtIdx := 624 })

/-- `MT.LDW` (R84). -/
def execMtLdw (idx : Index) (op : Word64) (s : State) : Result :=
  whenIndexLegal idx s <| withU32 op s fun v => respond .ok 0 (memWrite idx v s)

/-- `MT.LDU` (R98): the source's "`words[i] = untemper(y_i)`". -/
def execMtLdu (idx : Index) (op : Word64) (s : State) : Result :=
  whenIndexLegal idx s <| withU32 op s fun y => respond .ok 0 (memWrite idx (untemper y) s)

/-- `MT.LDI` (R85). -/
def execMtLdi (op : Word64) (s : State) : Result :=
  withIdx625 op s fun i => respond .ok 0 (setMtReady { s with mtIdx := i })

/-- `MT.RDW` (R86): the raw word, zero-extended. -/
def execMtRdw (idx : Index) (s : State) : Result :=
  match memRead idx s with
  | some w => respond .ok (w.zeroExtend 64) s
  | none => raise .illegalCommand s

/-- `MT.RDI` (R87). -/
def execMtRdi (s : State) : Result := respond .ok (s.mtIdx.zeroExtend 64) s

/-- `MT.TWIST` (R88): it twists whatever the index is. -/
def execMtTwist (s : State) : Result := whenMtReady s <| respond .ok 0 (refill s)

/-- `MT.NEXT` (R89). An index in 625..1023, which R15 says is never held, stops by name. -/
def execMtNext (s : State) : Result :=
  whenMtReady s <|
    let t := refillIfSpent s
    match memRead t.mtIdx t with
    | some w => respond .ok ((temper w).zeroExtend 64) { t with mtIdx := t.mtIdx + 1 }
    | none => .fault .mtIndexOutOfRange

end Sys2Proof.Machine
end

