-- ==== Sys2Proof/Machine/Sys.lean ====
section
/-! DEFINITION. The SYS unit (spec/43_sys.md): one command. -/

namespace Sys2Proof.Machine

/-- `SYS.RDSTAT` (R101). -/
def execSysRdstat (s : State) : Result := respond .ok (statusView s) s

end Sys2Proof.Machine
end

