-- ==== Sys2Proof/Machine/Tmp.lean ====
section
/-! DEFINITION. The TMP unit: two stateless commands (spec/41_mt_engine.md R90, spec/42_untemper.md R97). -/

namespace Sys2Proof.Machine

/-- `TMP.TEMPER` (R90). -/
def execTmpTemper (op : Word64) (s : State) : Result :=
  withU32 op s fun v => respond .ok ((temper v).zeroExtend 64) s

/-- `TMP.UNTEMPER` (R97). -/
def execTmpUntemper (op : Word64) (s : State) : Result :=
  withU32 op s fun y => respond .ok ((untemper y).zeroExtend 64) s

end Sys2Proof.Machine
end

