-- ==== Sys2Proof/Machine/Dispatch.lean ====
section
/-! DEFINITION. Which meaning each command has, one arm per constructor of `Instr`. -/

namespace Sys2Proof.Machine

def exec (i : Instr) (s : State) : Host.Outcome State Fault Refusal :=
  match i with
  | .sysRdstat => Sys2Proof.Machine.execSysRdstat s
  | .lcgLdm op => Sys2Proof.Machine.execLcgLdm op s
  | .lcgLda op => Sys2Proof.Machine.execLcgLda op s
  | .lcgLdc op => Sys2Proof.Machine.execLcgLdc op s
  | .lcgInit op => Sys2Proof.Machine.execLcgInit op s
  | .lcgRdm => Sys2Proof.Machine.execLcgRdm s
  | .lcgRda => Sys2Proof.Machine.execLcgRda s
  | .lcgRdc => Sys2Proof.Machine.execLcgRdc s
  | .lcgRdx => Sys2Proof.Machine.execLcgRdx s
  | .lcgNext => Sys2Proof.Machine.execLcgNext s
  | .mtSeed op => Sys2Proof.Machine.execMtSeed op s
  | .mtLdw idx op => Sys2Proof.Machine.execMtLdw idx op s
  | .mtLdu idx op => Sys2Proof.Machine.execMtLdu idx op s
  | .mtLdi op => Sys2Proof.Machine.execMtLdi op s
  | .mtRdw idx => Sys2Proof.Machine.execMtRdw idx s
  | .mtRdi => Sys2Proof.Machine.execMtRdi s
  | .mtTwist => Sys2Proof.Machine.execMtTwist s
  | .mtNext => Sys2Proof.Machine.execMtNext s
  | .tmpTemper op => Sys2Proof.Machine.execTmpTemper op s
  | .tmpUntemper op => Sys2Proof.Machine.execTmpUntemper op s

end Sys2Proof.Machine
end

