-- ==== Sys2Proof/Machine/Channel.lean ====
section
/-! DEFINITION. The command channel: what happens when the host issues a command
(spec/30_encoding.md R36, R43). -/

namespace Sys2Proof.Machine

/-- The block runs a command word and its operand to the response, atomically (spec/00_scope.md R6): an illegal
word answers `IllegalCommand` (R43 steps 1 to 3), every other one is executed. -/
def execute (c : Command) (s : State) : Result :=
  match decode c with
  | .ok i => exec i s
  | .error _ => raise .illegalCommand s

/-- The host issues a command. The block accepts it only when no response is pending
(spec/70_reset_and_hazards.md R121). -/
def issue (c : Command) (s : State) : Result :=
  match s.rsp with
  | none => execute c s
  | some _ => .refused .overlappingCommand

/-- One event of the host. -/
def hostEvent (e : HostEvent) (s : State) : Result :=
  match e with
  | .issue c => issue c s
  | .take => takeResponse s
  | .reset => .next (applyReset s)

/-- The host's next event is the command `c`, and the block can accept it. -/
def offer (c : Command) (s : State) : State := { s with rsp := none, host := .issue c :: s.host }

end Sys2Proof.Machine
end

