-- ==== Sys2Proof/Machine/Step.lean ====
section
/-! DEFINITION. One step: the host's next event happens. There is no program counter and no fetch
(spec/10_state.md R22); a command reaches the block because the host issues it. -/

namespace Sys2Proof.Machine

/-- With no event to come the block idles: it "never ends a run, never halts"
(spec/70_reset_and_hazards.md R127). -/
def step (s : State) : Host.Outcome State Fault Refusal :=
  match s.host with
  | [] => .next s
  | e :: rest => hostEvent e { s with host := rest }

/-- The next step runs the command whose bits are `w`: the host's next event issues it, and no response is
pending (log entry 2 says how commands come to run from `State.reset`). -/
def State.withFetchWord (s : State) (nbits w : Nat) : State := offer (tableCommand nbits w) s

end Sys2Proof.Machine
end

