-- ==== Sys2Proof/Machine/Asm.lean ====
section
/-! DEFINITION. The assembler syntax (spec/30_encoding.md R48): a line is a mnemonic and its literals; the
assembler turns it into a command; a command's encoding and a response are written as text. -/

namespace Sys2Proof.Machine

/-- A line: the mnemonic, and the operands in the order they are written. -/
structure AsmLine where
  mnemonic : String
  args : List Nat
deriving DecidableEq, Repr

/-- How a command is written: `MNEMONIC`, `MNEMONIC operand`, `MNEMONIC idx` or `MNEMONIC idx, operand`. -/
def toLine (i : Instr) : AsmLine :=
  ⟨i.mnemonic,
    (match i.format with
      | .N => []
      | .X => [i.idxField.toNat]) ++
    (match operandClass i with
      | .none => []
      | .u64 => [i.operand.toNat]
      | .u32 => [i.operand.toNat]
      | .idx625 => [i.operand.toNat])⟩

/-- A literal that fits `cmd.op`. -/
def opLiteral (n : Nat) (f : Word64 → Instr) : Option Instr :=
  if n < 2 ^ 64 then some (f (BitVec.ofNat 64 n)) else none

/-- A literal that fits the 10-bit index field; 624 to 1023 spell illegal command words. -/
def idxLiteral (n : Nat) (f : Index → Instr) : Option Instr :=
  if n < 2 ^ 10 then some (f (BitVec.ofNat 10 n)) else none

/-- The command a line names; there are no registers, labels or directives. -/
def AsmLine.parse (l : AsmLine) : Option Instr :=
  match l.mnemonic, l.args with
  | "SYS.RDSTAT", [] => some .sysRdstat
  | "LCG.LDM", [n] => opLiteral n .lcgLdm
  | "LCG.LDA", [n] => opLiteral n .lcgLda
  | "LCG.LDC", [n] => opLiteral n .lcgLdc
  | "LCG.INIT", [n] => opLiteral n .lcgInit
  | "LCG.RDM", [] => some .lcgRdm
  | "LCG.RDA", [] => some .lcgRda
  | "LCG.RDC", [] => some .lcgRdc
  | "LCG.RDX", [] => some .lcgRdx
  | "LCG.NEXT", [] => some .lcgNext
  | "MT.SEED", [n] => opLiteral n .mtSeed
  | "MT.LDW", [i, n] => if i < 2 ^ 10 then opLiteral n (.mtLdw (BitVec.ofNat 10 i)) else none
  | "MT.LDU", [i, n] => if i < 2 ^ 10 then opLiteral n (.mtLdu (BitVec.ofNat 10 i)) else none
  | "MT.LDI", [n] => opLiteral n .mtLdi
  | "MT.RDW", [i] => idxLiteral i .mtRdw
  | "MT.RDI", [] => some .mtRdi
  | "MT.TWIST", [] => some .mtTwist
  | "MT.NEXT", [] => some .mtNext
  | "TMP.TEMPER", [n] => opLiteral n .tmpTemper
  | "TMP.UNTEMPER", [n] => opLiteral n .tmpUntemper
  | _, _ => none

/-- The assembler: a line to a command; for class `none` it emits `op = 0`. -/
def AsmLine.assemble (l : AsmLine) : Option Command := l.parse.map encode

/-! ### Text -/

/-- The value of a digit character in base `base`, either case. -/
def digitValue (base : Nat) (c : Char) : Option Nat :=
  let n := c.toNat
  let v := if 48 ≤ n ∧ n ≤ 57 then n - 48 else if 65 ≤ n ∧ n ≤ 70 then n - 55
    else if 97 ≤ n ∧ n ≤ 102 then n - 87 else base
  if v < base then some v else none

/-- A non-empty string of digits, most significant first. -/
def digitsValue (base : Nat) : List Char → Option Nat
  | [] => none
  | cs => cs.foldl (fun acc c => do return (← acc) * base + (← digitValue base c)) (some 0)

/-- A literal: decimal, or hexadecimal after `0x`. -/
def literalValue : List Char → Option Nat
  | '0' :: 'x' :: cs => digitsValue 16 cs
  | cs => digitsValue 10 cs

/-- The operands of a line: literals separated by a comma and a space. -/
def literalList : List Char → List Char → Option (List Nat)
  | acc, [] => (literalValue acc.reverse).map fun n => [n]
  | acc, ',' :: ' ' :: cs => do return (← literalValue acc.reverse) :: (← literalList [] cs)
  | acc, c :: cs => literalList (c :: acc) cs

/-- A line of text, without its response. -/
def AsmLine.ofText (text : List Char) : Option AsmLine :=
  let mnemonic := String.ofList (text.takeWhile (· ≠ ' '))
  match text.dropWhile (· ≠ ' ') with
  | [] => some ⟨mnemonic, []⟩
  | _ :: operands => (literalList [] operands).map fun args => ⟨mnemonic, args⟩

/-- A line as text: operands are decimal. -/
def AsmLine.text (l : AsmLine) : String :=
  match l.args with
  | [] => l.mnemonic
  | n :: rest => rest.foldl (fun acc k => acc ++ ", " ++ toString k) (l.mnemonic ++ " " ++ toString n)

/-- `width` hexadecimal digits of `n`, most significant first. -/
def hexDigits (width n : Nat) : String :=
  String.ofList ((List.range width).reverse.map fun k => (Nat.digitChar (n / 16 ^ k % 16)).toUpper)

/-- `cw=0x........ op=0x................`. -/
def commandText (c : Command) : String :=
  "cw=0x" ++ hexDigits 8 c.cw.toNat ++ " op=0x" ++ hexDigits 16 c.op.toNat

/-- The name of a status code (spec/60_exceptions.md R103); 8 to 15 are reserved. -/
def statusName (st : BitVec 4) : String :=
  match st.toNat with
  | 0 => "OK"
  | 1 => "InsufficientSamples"
  | 2 => "DegenerateSequence"
  | 3 => "NoModularInverse"
  | 4 => "InvalidParameters"
  | 5 => "TwistBoundaryMismatch"
  | 6 => "IllegalCommand"
  | 7 => "NotReady"
  | _ => "reserved"

/-- `(status, value)`, as it stands after `=>`. -/
def Response.text (r : Response) : String :=
  "(" ++ statusName r.st ++ ", " ++ toString r.rv.toNat ++ ")"

end Sys2Proof.Machine
end

