-- ==== Sys2Proof/Machine/ByteStream.lean ====
section
/-! DEFINITION. The byte stream of generated output, the one place where byte order arises
(spec/20_memory.md R31 to R33; spec/90_conflicts.md C3). It is little-endian and takes low-order bytes. -/

namespace Sys2Proof.Machine

/-- `Bytes(v, w)`: the `w` low-order bytes of `v`, least significant first (R32). -/
def bytesOf (v : Word64) (w : Nat) : List Byte :=
  (List.range w).map fun j => v.extractLsb' (8 * j) 8

/-- `Pack(vs, w, n)`, defined for `n ≤ k * w` where `k` is the number of outputs: the first `n` bytes of the
concatenated byte groups; the rest is discarded (R32, R33). Outside that range, and for `w` outside 1 to 8, the rule
gives no value, and what this definition gives is the model's choice (DESIGN CHOICE, log entry 15). -/
def pack (vs : List Word64) (w n : Nat) : List Byte :=
  (vs.flatMap fun v => bytesOf v w).take n

/-- `ceil(n / w)`: how many outputs give `n` bytes (spec/30_encoding.md R51, R53). -/
def outputsFor (n w : Nat) : Nat := (n + w - 1) / w

end Sys2Proof.Machine
end

