-- ==== Sys2Proof/Machine/Pseudo.lean ====
section
/-! DEFINITION. The pseudo-instructions (spec/30_encoding.md R49 to R59): host-side sequences of commands. They
add no hardware and no state; each is its expansion. -/

namespace Sys2Proof.Machine

/-! ### The host's side of one command and of a sequence -/

/-- The host issues one command and takes its response. -/
def transact (c : Command) (s : State) : Host.Outcome (State × Response) Fault Refusal :=
  match issue c s with
  | .next t =>
    match t.rsp with
    | some r => .next ({ t with rsp := none, taken := t.taken ++ [r] }, r)
    | none => .refused .noResponsePending
  | .fault f => .fault f
  | .refused r => .refused r

/-- What a sequence of commands leaves: the state, the status (OK, or that of the first command that failed),
and the values of the commands that succeeded, in order. -/
structure SequenceResult where
  state : State
  status : BitVec 4
  values : List Word64
deriving DecidableEq, Repr

/-- The commands are issued one after another, each after the previous response, and the first status other
than OK ends the sequence (R49). -/
def issueAll : List Instr → State → Host.Outcome SequenceResult Fault Refusal
  | [], s => .next ⟨s, Status.ok.code, []⟩
  | i :: rest, s =>
    match transact (encode i) s with
    | .next (t, r) =>
      if r.st = Status.ok.code then
        match issueAll rest t with
        | .next q => .next { q with values := r.rv :: q.values }
        | .fault f => .fault f
        | .refused e => .refused e
      else .next ⟨t, r.st, []⟩
    | .fault f => .fault f
    | .refused e => .refused e

/-! ### The eight pseudo-instructions -/

inductive Pseudo where
  /-- `LCG.GEN n` (R50). -/
  | lcgGen (n : Nat)
  /-- `LCG.GENB n, w`; `w` is 4 when omitted (R51). -/
  | lcgGenb (n : Nat) (w : Nat := 4)
  /-- `MT.GEN n` (R52). -/
  | mtGen (n : Nat)
  /-- `MT.GENB n` (R53). -/
  | mtGenb (n : Nat)
  /-- `LCG.CONS m, a, c, seed` (R55). -/
  | lcgCons (m a c seed : Word64)
  /-- `MT.LDSTATE w_0, .., w_623, idx` (R56). -/
  | mtLdstate (words : Vector Word64 624) (idx : Word64)
  /-- `MT.RDSTATE` (R57). -/
  | mtRdstate
  /-- `MT.CLONE y_0, .., y_623` (R58). -/
  | mtClone (samples : Vector Word64 624)
deriving DecidableEq, Repr

/-- The operands the rules admit: `w` of `LCG.GENB` is 1 to 8 (R51; spec/20_memory.md R33). `runPseudo` does not
consult it: what other `w` do is the model's choice (log entry 15). -/
def Pseudo.wf : Pseudo → Bool
  | .lcgGen _ => true
  | .lcgGenb _ w => decide (1 ≤ w ∧ w ≤ 8)
  | .mtGen _ => true
  | .mtGenb _ => true
  | .lcgCons _ _ _ _ => true
  | .mtLdstate _ _ => true
  | .mtRdstate => true
  | .mtClone _ => true

/-- One command for each word index, in ascending order. -/
def forEachIndex (f : Index → Nat → Instr) : List Instr :=
  (List.range 624).map fun i => f (BitVec.ofNat 10 i) i

/-- The commands a pseudo-instruction issues. -/
def Pseudo.expand : Pseudo → List Instr
  | .lcgGen n => List.replicate n .lcgNext
  | .lcgGenb n w => List.replicate (outputsFor n w) .lcgNext
  | .mtGen n => List.replicate n .mtNext
  | .mtGenb n => List.replicate (outputsFor n 4) .mtNext
  | .lcgCons m a c seed => [.lcgLdm m, .lcgLda a, .lcgLdc c, .lcgInit seed]
  | .mtLdstate words idx =>
    (forEachIndex fun idx i => .mtLdw idx (words.toList.getD i 0)) ++ [.mtLdi idx]
  | .mtRdstate => (forEachIndex fun idx _ => .mtRdw idx) ++ [.mtRdi]
  | .mtClone samples =>
    (forEachIndex fun idx i => .mtLdu idx (samples.toList.getD i 0)) ++ [.mtLdi 624]

/-- The value a pseudo-instruction results in. -/
inductive PseudoValue where
  | nothing
  | outputs (vs : List Word64)
  | bytes (bs : List Byte)
  | mtState (words : List Word64) (idx : Word64)
deriving DecidableEq, Repr

/-- The value the pseudo-instruction's rule names, from the response values of its expansion. -/
def Pseudo.value (p : Pseudo) (vs : List Word64) : PseudoValue :=
  match p with
  | .lcgGen _ => .outputs vs
  | .lcgGenb n w => .bytes (pack vs w n)
  | .mtGen _ => .outputs vs
  | .mtGenb n => .bytes (pack vs 4 n)
  | .lcgCons _ _ _ _ => .nothing
  | .mtLdstate _ _ => .nothing
  | .mtRdstate => .mtState (vs.take 624) (vs.getD 624 0)
  | .mtClone _ => .nothing

/-- What a pseudo-instruction leaves: the state, the status, and the value when the status is OK (R49). -/
structure PseudoResult where
  state : State
  status : BitVec 4
  value : PseudoValue
deriving DecidableEq, Repr

/-- The host runs a pseudo-instruction. DESIGN CHOICE (log entry 15): `LCG.GENB n, w` with `w` outside 1 to 8, where
the spec gives no outcome, is run by the same expansion: `w = 0` issues nothing and gives OK with the empty list,
whatever `n` is; `w ≥ 9` reads zero for every byte above bit 63 of an output. -/
def runPseudo (p : Pseudo) (s : State) : Host.Outcome PseudoResult Fault Refusal :=
  match issueAll p.expand s with
  | .next q =>
    .next ⟨q.state, q.status, if q.status = Status.ok.code then p.value q.values else .nothing⟩
  | .fault f => .fault f
  | .refused e => .refused e

end Sys2Proof.Machine
end

