-- ==== Sys2Proof/Safety.lean ====
section
/-! DEFINITION. What counts as a safe state and a safe run, in the terms the claims use. -/

namespace Sys2Proof.Machine

/-- Invariant of the LCG unit (spec/10_state.md R13). -/
abbrev State.lcgInv (s : State) : Prop := s.lcgRdy = true → s.lcgM ≠ 0 ∧ s.lcgX.toNat < s.lcgM.toNat

/-- Invariant of the MT unit (spec/10_state.md R16). -/
abbrev State.mtInv (s : State) : Prop := s.mtIdx.toNat ≤ 624

/-- The only codes the block ever produces are 0, 4, 6 and 7 (spec/60_exceptions.md R103), and a failure has
the value 0 (spec/30_encoding.md R47). -/
abbrev Response.wf (r : Response) : Prop :=
  (r.st = Status.ok.code ∨ r.st = Status.invalidParameters.code ∨ r.st = Status.illegalCommand.code ∨
    r.st = Status.notReady.code) ∧ (r.st ≠ Status.ok.code → r.rv = 0)

/-- The channels carry well-formed responses only. -/
abbrev State.channelInv (s : State) : Prop :=
  (∀ r ∈ s.rsp, r.wf) ∧ ∀ r ∈ s.taken, r.wf

/-- The invariant of the machine. -/
abbrev State.Inv (s : State) : Prop := s.lcgInv ∧ s.mtInv ∧ s.channelInv

/-- Word `i` of an array, for `i` in 0..623. -/
def wordAt (w : MtWords) (i : Nat) : Word32 := w.toList.getD i 0

/-- The block's own state, without the channels and the host (spec/10_state.md R7). -/
structure Architectural where
  lcgM : Word64
  lcgA : Word64
  lcgC : Word64
  lcgX : Word64
  lcgRdy : Bool
  mtW : MtWords
  mtIdx : Index
  mtRdy : Bool
deriving DecidableEq, Repr

def State.architectural (s : State) : Architectural where
  lcgM := s.lcgM
  lcgA := s.lcgA
  lcgC := s.lcgC
  lcgX := s.lcgX
  lcgRdy := s.lcgRdy
  mtW := s.mtW
  mtIdx := s.mtIdx
  mtRdy := s.mtRdy

/-- `State.reset` with the events the host is going to cause. -/
def State.resetWith (events : List HostEvent) : State := { State.reset with host := events }

/-- `s` is reached from reset by `n` steps under some behaviour of the host. -/
def State.Reachable (s : State) : Prop :=
  ∃ events n, Host.Core.run Sys2Proof.core n (State.resetWith events) = .next s

/-- The illegal command words of spec/30_encoding.md R44, in terms of the bits of the word alone: an `OPC` that is
none of the twenty, a non-zero `RSV`, a non-zero `IDX` in format N, an `IDX` of 624 or more in format X. -/
def illegalWord (cw : Word32) : Prop :=
  let opc := cw.toNat / 2 ^ 24
  let rsv := cw.toNat / 2 ^ 10 % 2 ^ 14
  let idx := cw.toNat % 2 ^ 10
  opc ∉ [0x01, 0x10, 0x11, 0x12, 0x13, 0x14, 0x15, 0x16, 0x17, 0x18, 0x20, 0x21, 0x22, 0x23, 0x24, 0x25, 0x26, 0x28,
    0x30, 0x31] ∨
  rsv ≠ 0 ∨ (opc ∉ [0x21, 0x22, 0x24] ∧ idx ≠ 0) ∨ (opc ∈ [0x21, 0x22, 0x24] ∧ 624 ≤ idx)

/-- "No failure so far" is a property of the responses the host has taken (spec/60_exceptions.md R114). -/
abbrev State.noFailureTaken (s : State) : Prop := ∀ r ∈ s.taken, r.st = Status.ok.code

end Sys2Proof.Machine
end

