-- ==== Sys2Proof/Certificates/Slice0/Obligations.lean ====
section
/-! DEFINITION. What is claimed of the model. Responses are written by number: a response `⟨0, v⟩` is OK with the
value `v`, `⟨4, 0⟩` is `InvalidParameters`, `⟨6, 0⟩` is `IllegalCommand`, `⟨7, 0⟩` is `NotReady`
(spec/60_exceptions.md R103). -/

open Sys2Proof Sys2Proof.Machine

/-! ### Reset, the channels and the step -/

/-- spec/70_reset_and_hazards.md R116: the values after reset, in `State.reset` and after `rst` in any state. The
words of `MT_W` are the parameter `MT_W_RESET`, whatever it is. -/
def Obligations.ResetGivesTheResetValues : Prop :=
  ∀ s rest, s.host = .reset :: rest →
    ∃ t, step s = .next t ∧ (∀ u ∈ [t, State.reset], u.lcgM = 0 ∧ u.lcgA = 0 ∧ u.lcgC = 0 ∧ u.lcgX = 0 ∧
      u.lcgRdy = false ∧ u.mtIdx = 624 ∧ u.mtRdy = false ∧ u.rsp = none) ∧
      (∀ i : Index, i.toNat < 624 → memRead i t = some (Config.mtWReset s.resets i.toNat)) ∧
      (∀ i : Index, i.toNat < 624 → memRead i State.reset = some (Config.mtWReset 0 i.toNat))

/-- spec/70_reset_and_hazards.md R117: a reset after a command was issued and before its response was taken gives
the reset state whatever the command did, and the command's response is never taken. That the host's record and
its further events outlive a reset is the model's choice (log entries 2, 3). -/
def Obligations.ResetAbandonsTheCommandInFlight : Prop :=
  ∀ s c rest t, s.rsp = none → s.host = .issue c :: .reset :: rest → step s = .next t →
    ∃ u, step t = .next u ∧ u.architectural = (applyReset s).architectural ∧ u.rsp = none ∧
      u.taken = s.taken ∧ u.host = rest

/-- spec/70_reset_and_hazards.md R118: what a host sees just after reset. The spec marks R118 as derived. -/
def Obligations.ResponsesJustAfterReset : Prop :=
  ∀ s₀ s, s = applyReset s₀ →
    exec .sysRdstat s = .next { s with rsp := some ⟨0, 0⟩ } ∧
    (∀ i ∈ [Instr.lcgRdm, .lcgRda, .lcgRdc, .lcgRdx], exec i s = .next { s with rsp := some ⟨0, 0⟩ }) ∧
    exec .mtRdi s = .next { s with rsp := some ⟨0, 624⟩ } ∧
    (∀ idx : Index, idx.toNat < 624 → exec (.mtRdw idx) s =
      .next { s with rsp := some ⟨0, (Config.mtWReset s₀.resets idx.toNat).zeroExtend 64⟩ }) ∧
    (∀ i ∈ [Instr.lcgNext, .mtNext, .mtTwist], exec i s = .next { s with rsp := some ⟨7, 0⟩ }) ∧
    (∀ op, exec (.lcgInit op) s = .next { s with rsp := some ⟨4, 0⟩ }) ∧
    (∀ v : Word32, exec (.tmpTemper (v.zeroExtend 64)) s =
      .next { s with rsp := some ⟨0, (temper v).zeroExtend 64⟩ }) ∧
    (∀ v : Word32, exec (.tmpUntemper (v.zeroExtend 64)) s =
      .next { s with rsp := some ⟨0, (untemper v).zeroExtend 64⟩ })

/-- A step runs the command the decoder reads, on the state whose next event is gone
(spec/30_encoding.md R36, R43). -/
def Obligations.StepRunsTheDecodedCommand : Prop :=
  ∀ s c i rest, s.rsp = none → s.host = .issue c :: rest → decode c = .ok i →
    step s = exec i { s with host := rest }

/-- The response channel and the idle block: a taken response goes to the host's record; with no event to come
the block stays as it is; a command issued while a response is pending, and a take with nothing pending, are
refused. The list of the host's events, that what is left of it outlives a reset, and the idle step when it is empty
are the model's choice (DESIGN CHOICE, log entry 2); so are the record and that it outlives a reset (log entry 3) and
the two refusals (log entries 5, 6). -/
def Obligations.ChannelDiscipline : Prop :=
  (∀ s rest, s.host = .reset :: rest → ∃ t, step s = .next t ∧ t.host = rest ∧ t.taken = s.taken) ∧
  (∀ s r rest, s.rsp = some r → s.host = .take :: rest →
    step s = .next { s with host := rest, rsp := none, taken := s.taken ++ [r] }) ∧
  (∀ s, s.host = [] → step s = .next s) ∧
  (∀ s c r rest, s.rsp = some r → s.host = .issue c :: rest → step s = .refused .overlappingCommand) ∧
  (∀ s rest, s.rsp = none → s.host = .take :: rest → step s = .refused .noResponsePending)

/-! ### Encoding -/

/-- Decode and encode agree on every legal command (spec/30_encoding.md R37 to R42). -/
def Obligations.DecodeOfEncodeIsTheCommand : Prop :=
  ∀ i : Instr, i.wf = true → decode (encode i) = .ok i

/-- The other direction: a command word has one meaning, and encoding that meaning gives the word back; the
operand comes back too unless the command ignores it (spec/30_encoding.md R37 to R42). That an ignored operand is
encoded as 0 rests on what R48 says of the assembler (section 5); the model's encoder doing so is DEDUCED (log
entry 8). -/
def Obligations.EncodeOfDecodeIsTheWord : Prop :=
  ∀ c i, decode c = .ok i →
    i.wf = true ∧ (encode i).cw = c.cw ∧
      (encode i).op = if operandClass i = .none then 0 else c.op

/-- The command word as a number: `(OPC << 24) | IDX` with all other bits zero, and `OPC[7:4]` is the unit
(spec/30_encoding.md R38, R39, R41). -/
def Obligations.CommandWordIsOpcodeAndIndex : Prop :=
  ∀ i : Instr, (encode i).cw.toNat = i.opcode.toNat * 2 ^ 24 + i.idxField.toNat ∧
    (i.format = .N → (encode i).cw.toNat = i.opcode.toNat * 2 ^ 24) ∧
    (i.format = .X ↔ ((∃ idx op, i = .mtLdw idx op) ∨ (∃ idx op, i = .mtLdu idx op) ∨ ∃ idx, i = .mtRdw idx)) ∧
    i.opcode.toNat / 16 = i.blockUnit.number.toNat

/-- spec/30_encoding.md R44: the decoder rejects exactly the illegal command words, and an illegal word always answers
`(IllegalCommand, 0)` and changes no state, whatever the operand and the state. -/
def Obligations.IllegalWordsAreRefusedExactly : Prop :=
  ∀ (cw : Word32) (op : Word64),
    (illegalWord cw ↔ ∃ e, decode ⟨cw, op⟩ = .error e) ∧
    (illegalWord cw → ∀ s, execute ⟨cw, op⟩ s = .next { s with rsp := some ⟨6, 0⟩ }) ∧
    ∀ i, decode ⟨cw, op⟩ = .ok i → ∀ s, execute ⟨cw, op⟩ s = exec i s

/-- Words written out from the formats of spec/30_encoding.md R37 to R42. -/
def Obligations.WrittenOutWordsDecode : Prop :=
  decode ⟨0b00000001_00000000000000_0000000000#32, 0x1234⟩ = .ok .sysRdstat ∧
  decode ⟨0b00010000_00000000000000_0000000000#32, 0x7FFFFFFF⟩ = .ok (.lcgLdm 0x7FFFFFFF) ∧
  decode ⟨0b00011000_00000000000000_0000000000#32, 0⟩ = .ok .lcgNext ∧
  decode ⟨0b00100001_00000000000000_0000000101#32, 0x12345678⟩ = .ok (.mtLdw 5 0x12345678) ∧
  decode ⟨0b00100010_00000000000000_1001101111#32, 7⟩ = .ok (.mtLdu 623 7) ∧
  decode ⟨0b00100011_00000000000000_0000000000#32, 624⟩ = .ok (.mtLdi 624) ∧
  decode ⟨0b00101000_00000000000000_0000000000#32, 0⟩ = .ok .mtNext ∧
  decode ⟨0b00110001_00000000000000_0000000000#32, 9⟩ = .ok (.tmpUntemper 9) ∧
  decode ⟨0b00100001_00000000000000_1001110000#32, 0⟩ = .error .indexOutOfRange ∧
  decode ⟨0b00100111_00000000000000_0000000000#32, 0⟩ = .error .unassignedOpcode

/-- A command written as an assembler line assembles to its own words (spec/30_encoding.md R48). -/
def Obligations.AssemblerLineAssemblesToTheEncoding : Prop :=
  ∀ i : Instr, (toLine i).assemble = some (encode i)

/-! ### The whole machine -/

/-- The invariant holds at reset, whatever the host is going to do. -/
def Obligations.InvariantHoldsAtReset : Prop :=
  ∀ events, (State.resetWith events).Inv

/-- Every step keeps the invariant: a ready LCG has a state below its non-zero modulus, `MT_IDX` is at most 624,
and the channels carry only responses the block may produce. -/
def Obligations.EveryStepKeepsTheInvariant : Prop :=
  ∀ s t, s.Inv → step s = .next t → t.Inv

/-- In every state that meets the invariant the next step is no fault, whatever the host does next: the two faults
are raised only where spec/10_state.md R13 and R16, which the spec marks as derived, do not hold. The faults are the
model's choice (log entry 4). -/
def Obligations.NoStepFaultsUnderTheInvariant : Prop :=
  ∀ s f, s.Inv → step s ≠ .fault f

/-- spec/10_state.md R13, R16: "in every reachable state", under every behaviour of the host.
The spec marks R13 and R16 as derived. -/
def Obligations.ReachableStatesMeetTheUnitInvariants : Prop :=
  ∀ s, s.Reachable →
    (s.lcgRdy = true → s.lcgM ≠ 0 ∧ s.lcgX.toNat < s.lcgM.toNat) ∧ s.mtIdx.toNat ≤ 624 ∧
      ∀ f, step s ≠ .fault f

/-- spec/60_exceptions.md R113, R103: every command word with every operand has one of the four outcomes, in every
state that meets the invariant. The spec marks R113 as derived. -/
def Obligations.EveryCommandIsAnswered : Prop :=
  ∀ s c, s.Inv →
    ∃ t r, execute c s = .next t ∧ t.rsp = some r ∧ (r.st = 0 ∨ r.st = 4 ∨ r.st = 6 ∨ r.st = 7)

/-- spec/60_exceptions.md R109: a command that fails changes nothing and its value is 0. -/
def Obligations.FailedCommandsChangeNothing : Prop :=
  ∀ c s t r, execute c s = .next t → t.rsp = some r → r.st ≠ 0 →
    r.rv = 0 ∧ t = { s with rsp := some r }

/-- spec/60_exceptions.md R104, R105, R106: each failure is answered in exactly its cases. -/
def Obligations.FailureCausesAreExact : Prop :=
  ∀ c s t r, execute c s = .next t → t.rsp = some r →
    (r.st = 6 ↔ illegalWord c.cw) ∧
    (r.st = 7 ↔ (decode c = .ok .lcgNext ∧ s.lcgRdy = false) ∨
      ((decode c = .ok .mtTwist ∨ decode c = .ok .mtNext) ∧ s.mtRdy = false)) ∧
    (r.st = 4 ↔
      (∃ op, decode c = .ok (.lcgInit op) ∧ (s.lcgM = 0 ∨ s.lcgM.toNat ≤ op.toNat)) ∨
      (∃ op, 2 ^ 32 ≤ op.toNat ∧ (decode c = .ok (.mtSeed op) ∨ (∃ idx, decode c = .ok (.mtLdw idx op)) ∨
        (∃ idx, decode c = .ok (.mtLdu idx op)) ∨ decode c = .ok (.tmpTemper op) ∨
        decode c = .ok (.tmpUntemper op))) ∨
      (∃ op, decode c = .ok (.mtLdi op) ∧ 624 < op.toNat))

/-- spec/60_exceptions.md R110, R114: after a failure the block accepts the next command exactly as if the failing
one had not been issued; only the host's own record of responses is longer. -/
def Obligations.FailuresAreNotSticky : Prop :=
  ∀ c d s t r u q, s.rsp = none → transact c s = .next (t, r) → r.st ≠ 0 → transact d s = .next (u, q) →
    transact d t = .next ({ u with taken := s.taken ++ [r, q] }, q)

/-- What each register, flag and channel may be written by (spec/10_state.md sections 2, 3 and 6). -/
def Obligations.OnlyTheNamedCommandsWriteEachRegister : Prop :=
  ∀ i s t, exec i s = .next t →
    (t.lcgM ≠ s.lcgM → ∃ op, i = .lcgLdm op ∧ t.lcgM = op) ∧
    (t.lcgA ≠ s.lcgA → ∃ op, i = .lcgLda op ∧ t.lcgA = op) ∧
    (t.lcgC ≠ s.lcgC → ∃ op, i = .lcgLdc op ∧ t.lcgC = op) ∧
    (t.lcgX ≠ s.lcgX → (∃ op, i = .lcgInit op ∧ t.lcgX = op) ∨ i = .lcgNext) ∧
    (s.lcgRdy = false → t.lcgRdy = true → ∃ op, i = .lcgInit op) ∧
    (s.lcgRdy = true → t.lcgRdy = false → ∃ op, i = .lcgLdm op ∨ i = .lcgLda op ∨ i = .lcgLdc op) ∧
    (t.mtIdx ≠ s.mtIdx → (∃ op, i = .mtSeed op ∨ i = .mtLdi op) ∨ i = .mtTwist ∨ i = .mtNext) ∧
    (s.mtRdy = true → t.mtRdy = true) ∧
    (s.mtRdy = false → t.mtRdy = true → ∃ op, i = .mtSeed op ∨ i = .mtLdi op) ∧
    t.rsp ≠ none ∧ t.host = s.host ∧ t.taken = s.taken ∧ t.resets = s.resets

/-- A command that stores no word leaves every word as it was; `MT.NEXT` stores none unless it twists
(spec/10_state.md section 6). -/
def Obligations.CommandsThatStoreNoWordKeepTheWords : Prop :=
  ∀ i s t, exec i s = .next t →
    (∀ op idx, i ≠ .mtSeed op ∧ i ≠ .mtLdw idx op ∧ i ≠ .mtLdu idx op) → i ≠ .mtTwist →
    (i = .mtNext → s.mtIdx ≠ 624) →
    ∀ j, memRead j t = memRead j s

/-- "No LCG command touches MT state and no MT, TMP or SYS command touches LCG state", and what the commands of
one engine do is a function of that engine's state alone (spec/10_state.md section 6). -/
def Obligations.TheTwoEnginesShareNothing : Prop :=
  (∀ i s t, exec i s = .next t →
    (i.blockUnit = .lcg → t.mtW = s.mtW ∧ t.mtIdx = s.mtIdx ∧ t.mtRdy = s.mtRdy) ∧
    (i.blockUnit ≠ .lcg → t.lcgM = s.lcgM ∧ t.lcgA = s.lcgA ∧ t.lcgC = s.lcgC ∧ t.lcgX = s.lcgX ∧
      t.lcgRdy = s.lcgRdy)) ∧
  (∀ i s s' t, i.blockUnit = .lcg → exec i s = .next t →
    s'.lcgM = s.lcgM → s'.lcgA = s.lcgA → s'.lcgC = s.lcgC → s'.lcgX = s.lcgX → s'.lcgRdy = s.lcgRdy →
    ∃ t', exec i s' = .next t' ∧ t'.rsp = t.rsp ∧
      t'.lcgM = t.lcgM ∧ t'.lcgA = t.lcgA ∧ t'.lcgC = t.lcgC ∧ t'.lcgX = t.lcgX ∧ t'.lcgRdy = t.lcgRdy) ∧
  (∀ i s s' t, i.blockUnit = .mt ∨ i.blockUnit = .tmp → exec i s = .next t →
    s'.mtW = s.mtW → s'.mtIdx = s.mtIdx → s'.mtRdy = s.mtRdy →
    ∃ t', exec i s' = .next t' ∧ t'.rsp = t.rsp ∧ t'.mtW = t.mtW ∧ t'.mtIdx = t.mtIdx ∧ t'.mtRdy = t.mtRdy)

/-- Reads have no side effects and are idempotent (spec/20_memory.md R29): a read changes nothing but the response,
and reading again gives the same response. -/
def Obligations.ReadsChangeNothingAndRepeat : Prop :=
  ∀ idx i s t, i ∈ [Instr.mtRdw idx, .lcgRdm, .lcgRda, .lcgRdc, .lcgRdx, .mtRdi, .sysRdstat] →
    exec i s = .next t → t = { s with rsp := t.rsp } ∧ exec i t = .next t

/-! ### SYS -/

/-- spec/43_sys.md R101: bit 1 is `MT_RDY`, bit 0 is `LCG_RDY`, the rest is 0, and no state is written. -/
def Obligations.RdstatReturnsTheReadyFlags : Prop :=
  ∀ op s, decode ⟨0x01000000, op⟩ = .ok .sysRdstat ∧
    ∃ v : Word64, exec .sysRdstat s = .next { s with rsp := some ⟨0, v⟩ } ∧
      v.getLsbD 0 = s.lcgRdy ∧ v.getLsbD 1 = s.mtRdy ∧ v.toNat ≤ 3

/-- spec/10_state.md R12, R18: what sets, clears and keeps each ready flag, which commands require it, where it is
visible, and that reset clears both. -/
def Obligations.ReadyFlagsFollowConstruction : Prop :=
  (∀ i s t r, exec i s = .next t → t.rsp = some r →
    (t.lcgRdy = true ↔ (r.st = 0 ∧ ∃ op, i = .lcgInit op) ∨
      (s.lcgRdy = true ∧ ∀ op, i ≠ .lcgLdm op ∧ i ≠ .lcgLda op ∧ i ≠ .lcgLdc op)) ∧
    (t.mtRdy = true ↔ s.mtRdy = true ∨ (r.st = 0 ∧ ∃ op, i = .mtSeed op ∨ i = .mtLdi op)) ∧
    (i = .lcgNext → s.lcgRdy = false → r.st = 7) ∧
    (i = .mtNext ∨ i = .mtTwist → s.mtRdy = false → r.st = 7) ∧
    (i = .sysRdstat → r.rv.getLsbD 0 = s.lcgRdy ∧ r.rv.getLsbD 1 = s.mtRdy)) ∧
  ∀ s, ∀ u ∈ [applyReset s, State.reset], u.lcgRdy = false ∧ u.mtRdy = false

/-! ### LCG -/

/-- spec/40_lcg.md R63, R64, R65. -/
def Obligations.LcgParameterLoadsStoreAndClearReady : Prop :=
  ∀ op s,
    (decode ⟨0x10000000, op⟩ = .ok (.lcgLdm op) ∧
      exec (.lcgLdm op) s = .next { s with lcgM := op, lcgRdy := false, rsp := some ⟨0, 0⟩ }) ∧
    (decode ⟨0x11000000, op⟩ = .ok (.lcgLda op) ∧
      exec (.lcgLda op) s = .next { s with lcgA := op, lcgRdy := false, rsp := some ⟨0, 0⟩ }) ∧
    (decode ⟨0x12000000, op⟩ = .ok (.lcgLdc op) ∧
      exec (.lcgLdc op) s = .next { s with lcgC := op, lcgRdy := false, rsp := some ⟨0, 0⟩ })

/-- spec/40_lcg.md R66, both outcomes. -/
def Obligations.LcgInitConstructsOrFails : Prop :=
  ∀ op s, decode ⟨0x13000000, op⟩ = .ok (.lcgInit op) ∧
    (s.lcgM ≠ 0 → op.toNat < s.lcgM.toNat →
      exec (.lcgInit op) s = .next { s with lcgX := op, lcgRdy := true, rsp := some ⟨0, 0⟩ }) ∧
    (s.lcgM = 0 ∨ s.lcgM.toNat ≤ op.toNat →
      exec (.lcgInit op) s = .next { s with rsp := some ⟨4, 0⟩ })

/-- spec/40_lcg.md R67, R68, R69, R70: the value as loaded, no ready flag needed, nothing changed. -/
def Obligations.LcgReadsReturnTheRegisters : Prop :=
  ∀ op s,
    (decode ⟨0x14000000, op⟩ = .ok .lcgRdm ∧ exec .lcgRdm s = .next { s with rsp := some ⟨0, s.lcgM⟩ }) ∧
    (decode ⟨0x15000000, op⟩ = .ok .lcgRda ∧ exec .lcgRda s = .next { s with rsp := some ⟨0, s.lcgA⟩ }) ∧
    (decode ⟨0x16000000, op⟩ = .ok .lcgRdc ∧ exec .lcgRdc s = .next { s with rsp := some ⟨0, s.lcgC⟩ }) ∧
    (decode ⟨0x17000000, op⟩ = .ok .lcgRdx ∧ exec .lcgRdx s = .next { s with rsp := some ⟨0, s.lcgX⟩ })

/-- spec/40_lcg.md R71 with R60 and the convention of R73: the new state, computed on unbounded integers, is both
the output and the new `LCG_X`. -/
def Obligations.LcgNextAdvancesByTheExactRecurrence : Prop :=
  ∀ op s, decode ⟨0x18000000, op⟩ = .ok .lcgNext ∧
    (s.lcgRdy = true → s.lcgM ≠ 0 →
      ∃ v : Word64, v.toNat = (s.lcgA.toNat * s.lcgX.toNat + s.lcgC.toNat) % s.lcgM.toNat ∧
        exec .lcgNext s = .next { s with lcgX := v, rsp := some ⟨0, v⟩ }) ∧
    (s.lcgRdy = false → exec .lcgNext s = .next { s with rsp := some ⟨7, 0⟩ })

/-- spec/40_lcg.md R61: the intermediate is at most 2^128 − 2^64 and is carried in 128 bits; wrapping it at 64 bits
first gives the same result when `m` divides 2^64, and another one in the example of the rule. -/
def Obligations.LcgStepUsesTheFullIntermediate : Prop :=
  (∀ m a c x : Word64, m ≠ 0 →
    a.toNat * x.toNat + c.toNat ≤ 2 ^ 128 - 2 ^ 64 ∧
    lcgStep m a c x =
      ((a.zeroExtend 128 * x.zeroExtend 128 + c.zeroExtend 128) % m.zeroExtend 128).truncate 64 ∧
    (m.toNat ∣ 2 ^ 64 → lcgStep m a c x = (a * x + c) % m)) ∧
  ∀ m a c x : Word64, m = 2 ^ 61 - 1 → a = 0x1000000000003039 → x = 0x1000000000000063 → c = 77 →
    lcgStep m a c x = 576460752304651942 ∧ (a * x + c) % m = 1222238

/-- spec/40_lcg.md R62: equivalent parameters give the same step, hence the same outputs for ever.
The spec marks R62 as derived. -/
def Obligations.LcgOutputsDependOnResiduesOnly : Prop :=
  (∀ m a c x : Word64, m ≠ 0 → lcgStep m a c x = lcgStep m (a % m) (c % m) (x % m)) ∧
  (∀ n s s' p, s.lcgRdy = true → s'.lcgRdy = true → s.lcgM ≠ 0 → s'.lcgM = s.lcgM → s'.lcgX = s.lcgX →
    s'.lcgA % s.lcgM = s.lcgA % s.lcgM → s'.lcgC % s.lcgM = s.lcgC % s.lcgM → s.rsp = none → s'.rsp = none →
    runPseudo (.lcgGen n) s = .next p →
    ∃ p', runPseudo (.lcgGen n) s' = .next p' ∧ p'.status = p.status ∧ p'.value = p.value)

/-- `LCG.GEN n` on a constructed generator gives `x_1 .. x_n` of the recurrence that starts with `x_0 = LCG_X`
(spec/30_encoding.md R50, spec/40_lcg.md R73), and leaves `LCG_X = x_n` and everything else. -/
def Obligations.LcgGenGivesTheRecurrence : Prop :=
  ∀ (n : Nat) (s : State) (x : Nat → Word64), s.rsp = none → s.lcgRdy = true → s.lcgM ≠ 0 →
    x 0 = s.lcgX →
    (∀ k, (x (k + 1)).toNat = (s.lcgA.toNat * (x k).toNat + s.lcgC.toNat) % s.lcgM.toNat) →
    ∃ t, runPseudo (.lcgGen n) s = .next ⟨t, 0, .outputs ((List.range n).map fun k => x (k + 1))⟩ ∧
      t.architectural = { s.architectural with lcgX := x n } ∧ t.rsp = none

/-- spec/30_encoding.md R51 with spec/20_memory.md R32: `LCG.GENB n, w` gives exactly `n` bytes, byte `i` being byte
`i mod w` (low-order first) of output number `i / w`, and consumes exactly `ceil(n / w)` outputs; `w` is 4 when
omitted. -/
def Obligations.LcgGenbPacksTheOutputs : Prop :=
  ∀ (n w : Nat) (s : State) (x : Nat → Word64), 1 ≤ w → w ≤ 8 → s.rsp = none → s.lcgRdy = true → s.lcgM ≠ 0 →
    x 0 = s.lcgX →
    (∀ k, (x (k + 1)).toNat = (s.lcgA.toNat * (x k).toNat + s.lcgC.toNat) % s.lcgM.toNat) →
    ∃ t bs, runPseudo (.lcgGenb n w) s = .next ⟨t, 0, .bytes bs⟩ ∧ bs.length = n ∧
      (∀ i < n, bs[i]? = some ((x (i / w + 1)).extractLsb' (8 * (i % w)) 8)) ∧
      t.architectural = { s.architectural with lcgX := x ((n + w - 1) / w) } ∧ Pseudo.lcgGenb n = .lcgGenb n 4

/-- spec/30_encoding.md R55, both outcomes. The spec marks R55 as derived. -/
def Obligations.LcgConsConstructsOrFails : Prop :=
  ∀ (m a c seed : Word64) (s : State), s.rsp = none →
    (m ≠ 0 ∧ seed.toNat < m.toNat →
      ∃ t, runPseudo (.lcgCons m a c seed) s = .next ⟨t, 0, .nothing⟩ ∧
        t.architectural =
          { s.architectural with lcgM := m, lcgA := a, lcgC := c, lcgX := seed, lcgRdy := true }) ∧
    (¬(m ≠ 0 ∧ seed.toNat < m.toNat) →
      ∃ t, runPseudo (.lcgCons m a c seed) s = .next ⟨t, 4, .nothing⟩ ∧
        t.architectural = { s.architectural with lcgM := m, lcgA := a, lcgC := c, lcgRdy := false })

/-- spec/70_reset_and_hazards.md R122: after a parameter load `LCG.NEXT` answers `NotReady`, `LCG_X` keeps its value,
and `LCG.INIT` with that value continues under the new modulus if it is below it. The spec marks R122 as derived. -/
def Obligations.LcgParameterLoadKeepsTheStateForReinit : Prop :=
  ∀ op i s t, i ∈ [Instr.lcgLdm op, .lcgLda op, .lcgLdc op] → exec i s = .next t →
    exec .lcgNext t = .next { t with rsp := some ⟨7, 0⟩ } ∧
    exec .lcgRdx t = .next { t with rsp := some ⟨0, s.lcgX⟩ } ∧
    (s.lcgX.toNat < t.lcgM.toNat →
      exec (.lcgInit s.lcgX) t = .next { t with lcgX := s.lcgX, lcgRdy := true, rsp := some ⟨0, 0⟩ })

/-! ### MT: commands -/

/-- spec/41_mt_engine.md R83 with the recurrence of R82. -/
def Obligations.MtSeedFillsTheWords : Prop :=
  ∀ op s, decode ⟨0x20000000, op⟩ = .ok (.mtSeed op) ∧
    (op.toNat < 2 ^ 32 →
      ∃ t, exec (.mtSeed op) s = .next t ∧
        t = { s with mtW := t.mtW, mtIdx := 624, mtRdy := true, rsp := some ⟨0, 0⟩ } ∧
        memRead 0 t = some (op.truncate 32) ∧
        ∀ i p, i + 1 < 624 → memRead (BitVec.ofNat 10 i) t = some p →
          memRead (BitVec.ofNat 10 (i + 1)) t =
            some (BitVec.ofNat 32 (1812433253 * (p ^^^ (p >>> 30)).toNat + (i + 1)))) ∧
    (2 ^ 32 ≤ op.toNat → exec (.mtSeed op) s = .next { s with rsp := some ⟨4, 0⟩ })

/-- spec/41_mt_engine.md R84: one word is written, every other word and everything else stays; the failures. -/
def Obligations.MtLdwWritesOneWord : Prop :=
  ∀ idx op s,
    (idx.toNat < 624 → decode ⟨0x21000000 + idx.zeroExtend 32, op⟩ = .ok (.mtLdw idx op)) ∧
    (idx.toNat < 624 → op.toNat < 2 ^ 32 →
      ∃ t, exec (.mtLdw idx op) s = .next t ∧ memRead idx t = some (op.truncate 32) ∧
        (∀ j, j ≠ idx → memRead j t = memRead j s) ∧
        t = { s with mtW := t.mtW, rsp := some ⟨0, 0⟩ }) ∧
    (idx.toNat < 624 → 2 ^ 32 ≤ op.toNat → exec (.mtLdw idx op) s = .next { s with rsp := some ⟨4, 0⟩ }) ∧
    (624 ≤ idx.toNat → exec (.mtLdw idx op) s = .next { s with rsp := some ⟨6, 0⟩ })

/-- spec/42_untemper.md R98: `Untemper` of the operand is written, "exactly the effect of `MT.LDW i, Untemper(y)`",
and tempering the word read back gives the operand again. The spec marks the equality with `MT.LDW` as derived, and
the last point rests on R96, which it marks as derived too. -/
def Obligations.MtLduWritesTheUntemperedWord : Prop :=
  ∀ idx op s,
    (idx.toNat < 624 → decode ⟨0x22000000 + idx.zeroExtend 32, op⟩ = .ok (.mtLdu idx op)) ∧
    (idx.toNat < 624 → op.toNat < 2 ^ 32 →
      ∃ t w, exec (.mtLdu idx op) s = .next t ∧ memRead idx t = some w ∧ w = untemper (op.truncate 32) ∧
        temper w = op.truncate 32 ∧
        (∀ j, j ≠ idx → memRead j t = memRead j s) ∧
        t = { s with mtW := t.mtW, rsp := some ⟨0, 0⟩ } ∧
        exec (.mtLdw idx (w.zeroExtend 64)) s = .next t) ∧
    (idx.toNat < 624 → 2 ^ 32 ≤ op.toNat → exec (.mtLdu idx op) s = .next { s with rsp := some ⟨4, 0⟩ }) ∧
    (624 ≤ idx.toNat → exec (.mtLdu idx op) s = .next { s with rsp := some ⟨6, 0⟩ })

/-- spec/41_mt_engine.md R85: all 64 bits are compared with 624. -/
def Obligations.MtLdiSetsTheIndexOrFails : Prop :=
  ∀ op s, decode ⟨0x23000000, op⟩ = .ok (.mtLdi op) ∧
    (op.toNat ≤ 624 →
      ∃ i : Index, i.toNat = op.toNat ∧
        exec (.mtLdi op) s = .next { s with mtIdx := i, mtRdy := true, rsp := some ⟨0, 0⟩ }) ∧
    (624 < op.toNat → exec (.mtLdi op) s = .next { s with rsp := some ⟨4, 0⟩ })

/-- spec/41_mt_engine.md R86, R87: the raw word and the index, zero-extended. -/
def Obligations.MtReadsReturnTheWordAndTheIndex : Prop :=
  ∀ idx op s,
    (idx.toNat < 624 → decode ⟨0x24000000 + idx.zeroExtend 32, op⟩ = .ok (.mtRdw idx)) ∧
    decode ⟨0x25000000, op⟩ = .ok .mtRdi ∧
    (∀ w, memRead idx s = some w →
      exec (.mtRdw idx) s = .next { s with rsp := some ⟨0, w.zeroExtend 64⟩ }) ∧
    (idx.toNat < 624 → memRead idx s ≠ none) ∧
    (624 ≤ idx.toNat → exec (.mtRdw idx) s = .next { s with rsp := some ⟨6, 0⟩ }) ∧
    exec .mtRdi s = .next { s with rsp := some ⟨0, s.mtIdx.zeroExtend 64⟩ }

/-- spec/41_mt_engine.md R88: the twist whatever the index is; with `MT_IDX = 624`, `MT.TWIST` and then `MT.NEXT`
gives the output and the final state of `MT.NEXT` alone. -/
def Obligations.MtTwistCommandTwists : Prop :=
  ∀ op s, decode ⟨0x26000000, op⟩ = .ok .mtTwist ∧
    (s.mtRdy = true →
      ∃ t, exec .mtTwist s = .next t ∧
        t = { s with mtW := twist s.mtW, mtIdx := 0, rsp := some ⟨0, 0⟩ } ∧
        (s.mtIdx = 624 → exec .mtNext t = exec .mtNext s)) ∧
    (s.mtRdy = false → exec .mtTwist s = .next { s with rsp := some ⟨7, 0⟩ })

/-- spec/41_mt_engine.md R89, all cases: not ready; index below 624; index 624, where the twist comes first. -/
def Obligations.MtNextGivesTheTemperedWord : Prop :=
  ∀ op s, decode ⟨0x28000000, op⟩ = .ok .mtNext ∧
    (s.mtRdy = true → s.mtIdx.toNat < 624 →
      ∃ w, memRead s.mtIdx s = some w ∧
        exec .mtNext s = .next { s with mtIdx := s.mtIdx + 1, rsp := some ⟨0, (temper w).zeroExtend 64⟩ } ∧
        (s.mtIdx + 1).toNat = s.mtIdx.toNat + 1) ∧
    (s.mtRdy = true → s.mtIdx.toNat = 624 →
      ∃ w, w = twist s.mtW ∧
        exec .mtNext s = .next { s with mtW := w, mtIdx := 1, rsp := some ⟨0, (temper w[0]).zeroExtend 64⟩ }) ∧
    (s.mtRdy = false → exec .mtNext s = .next { s with rsp := some ⟨7, 0⟩ })

/-! ### MT: the twist -/

/-- spec/41_mt_engine.md R81, the loop: `w i` is the array before pass `i`, each pass writes word `i` alone, and its
reads see the array that the earlier passes left. -/
def Obligations.TwistRunsTheLoopInPlace : Prop :=
  ∀ o : MtWords, ∃ w : Nat → MtWords, w 0 = o ∧ w 624 = twist o ∧
    ∀ i < 624, ∀ y : Word32,
      y = (wordAt (w i) i &&& 0x80000000) ||| (wordAt (w i) ((i + 1) % 624) &&& 0x7FFFFFFF) →
      (∀ j, j ≠ i → wordAt (w (i + 1)) j = wordAt (w i) j) ∧
      wordAt (w (i + 1)) i =
        wordAt (w i) ((i + 397) % 624) ^^^ (y >>> 1) ^^^ (if y.toNat % 2 = 1 then 0x9908B0DF else 0)

/-- spec/41_mt_engine.md R81, the form without in-place reads: three ranges of new words `N` from old words `O`.
The spec derives this form from the loop. -/
def Obligations.TwistWordsByOldAndNewWords : Prop :=
  ∀ (o n : MtWords) (G : Word32 → Word32 → Word32), n = twist o →
    (∀ hi lo y : Word32, y = (hi &&& 0x80000000) ||| (lo &&& 0x7FFFFFFF) →
      G hi lo = (y >>> 1) ^^^ (if y.toNat % 2 = 1 then 0x9908B0DF else 0)) →
    (∀ i, i ≤ 226 → wordAt n i = wordAt o (i + 397) ^^^ G (wordAt o i) (wordAt o (i + 1))) ∧
    (∀ i, 227 ≤ i → i ≤ 622 → wordAt n i = wordAt n (i - 227) ^^^ G (wordAt o i) (wordAt o (i + 1))) ∧
    wordAt n 623 = wordAt n 396 ^^^ G (wordAt o 623) (wordAt n 0)

/-- A property of spec/41_mt_engine.md R81: only the top bit of word 0 influences the twist. -/
def Obligations.TwistIgnoresTheLowBitsOfWordZero : Prop :=
  ∀ (w : MtWords) (v : Word32), v.getLsbD 31 = w[0].getLsbD 31 →
    twist (w.set 0 v) = twist w

/-- A property of spec/41_mt_engine.md R81: the twist is linear over GF(2) and fixes the all-zero state. -/
def Obligations.TwistIsLinear : Prop :=
  (∀ v w : MtWords, twist (Vector.zipWith (· ^^^ ·) v w) = Vector.zipWith (· ^^^ ·) (twist v) (twist w)) ∧
  twist (Vector.replicate 624 0) = Vector.replicate 624 0

/-! ### Tempering and its inverse -/

/-- spec/41_mt_engine.md R76 to R79, bit by bit. -/
def Obligations.TemperingStepsBitByBit : Prop :=
  ∀ (v : Word32) (i : Nat), i < 32 →
    (T1 v).getLsbD i = (v.getLsbD i ^^ (decide (i ≤ 20) && v.getLsbD (i + 11))) ∧
    (T2 v).getLsbD i =
      (v.getLsbD i ^^ (decide (7 ≤ i) && v.getLsbD (i - 7) && (0x9D2C5680 : Word32).getLsbD i)) ∧
    (T3 v).getLsbD i =
      (v.getLsbD i ^^ (decide (15 ≤ i) && v.getLsbD (i - 15) && (0xEFC60000 : Word32).getLsbD i)) ∧
    (T4 v).getLsbD i = (v.getLsbD i ^^ (decide (i ≤ 13) && v.getLsbD (i + 18)))

/-- spec/41_mt_engine.md R80: the composition, linear over GF(2), and a bijection whose inverse is `Untemper`; so
"for all 32-bit values `v`, `untemper(temper(v)) == v`". That `Untemper` is linear too is in spec/42_untemper.md R96,
which the spec marks as derived. -/
def Obligations.TemperIsALinearBijection : Prop :=
  (∀ v, temper v = T4 (T3 (T2 (T1 v))) ∧ untemper (temper v) = v ∧ temper (untemper v) = v) ∧ temper 0 = 0 ∧
  ∀ x y, temper (x ^^^ y) = temper x ^^^ temper y ∧ untemper (x ^^^ y) = untemper x ^^^ untemper y

/-- Section 2 of spec/42_untemper.md: for every shift and mask each inversion is the one solution of its equation,
and the bit-by-bit loop computes the same value. -/
def Obligations.InversionsAreTheUniqueSolutions : Prop :=
  ∀ (y v mask : Word32) (k : Nat), 1 ≤ k → k ≤ 31 →
    (v ^^^ ((v >>> k) &&& mask) = y ↔ v = invRight y k mask) ∧
    (v ^^^ ((v <<< k) &&& mask) = y ↔ v = invLeft y k mask) ∧
    invRightBits y k mask = invRight y k mask ∧ invLeftBits y k mask = invLeft y k mask

/-- spec/42_untemper.md R91 to R94: each step is its bit-by-bit inversion, equals the rounds written out, and undoes
its tempering step on both sides; R95 composes them in reverse order. -/
def Obligations.InverseStepsUndoTheTemperingSteps : Prop :=
  ∀ y : Word32, untemper y = U1 (U2 (U3 (U4 y))) ∧
    (U4 y = invRightBits y 18 0xFFFFFFFF ∧ U4 y = y ^^^ (y >>> 18) ∧ U4 y = T4 y ∧ U4 (T4 y) = y ∧ T4 (U4 y) = y) ∧
    (U3 y = invLeftBits y 15 0xEFC60000 ∧
      (∀ v₁, v₁ = y ^^^ ((y <<< 15) &&& 0xEFC60000) → U3 y = y ^^^ ((v₁ <<< 15) &&& 0xEFC60000)) ∧
      U3 (T3 y) = y ∧ T3 (U3 y) = y) ∧
    (U2 y = invLeftBits y 7 0x9D2C5680 ∧
      (∀ v₁ v₂ v₃, v₁ = y ^^^ ((y <<< 7) &&& 0x9D2C5680) → v₂ = y ^^^ ((v₁ <<< 7) &&& 0x9D2C5680) →
        v₃ = y ^^^ ((v₂ <<< 7) &&& 0x9D2C5680) → U2 y = y ^^^ ((v₃ <<< 7) &&& 0x9D2C5680)) ∧
      U2 (T2 y) = y ∧ T2 (U2 y) = y) ∧
    (U1 y = invRightBits y 11 0xFFFFFFFF ∧ U1 y = y ^^^ (y >>> 11) ^^^ (y >>> 22) ∧ U1 (T1 y) = y ∧ T1 (U1 y) = y)

/-- spec/41_mt_engine.md R90, spec/42_untemper.md R97: stateless, no ready flag needed. -/
def Obligations.TmpCommandsApplyTheirFunctions : Prop :=
  ∀ op s, decode ⟨0x30000000, op⟩ = .ok (.tmpTemper op) ∧ decode ⟨0x31000000, op⟩ = .ok (.tmpUntemper op) ∧
    (op.toNat < 2 ^ 32 →
      exec (.tmpTemper op) s = .next { s with rsp := some ⟨0, (temper (op.truncate 32)).zeroExtend 64⟩ } ∧
      exec (.tmpUntemper op) s = .next { s with rsp := some ⟨0, (untemper (op.truncate 32)).zeroExtend 64⟩ }) ∧
    (2 ^ 32 ≤ op.toNat →
      exec (.tmpTemper op) s = .next { s with rsp := some ⟨4, 0⟩ } ∧
      exec (.tmpUntemper op) s = .next { s with rsp := some ⟨4, 0⟩ })

/-! ### Output streams and clones -/

/-- spec/20_memory.md R32. -/
def Obligations.PackTakesLowOrderBytesFirst : Prop :=
  ∀ (vs : List Word64) (w n : Nat), 1 ≤ w → w ≤ 8 → n ≤ vs.length * w →
    (pack vs w n).length = n ∧
    ∀ i < n, (pack vs w n)[i]? = some ((vs.getD (i / w) 0).extractLsb' (8 * (i % w)) 8)

/-- spec/30_encoding.md R49: the first status other than OK ends a sequence with that status, and what was executed
keeps its effect; otherwise every command is issued after the previous response; the value goes with OK only.
That a failed sequence has the value `nothing` is DEDUCED (log entry 13). -/
def Obligations.SequencesStopAtTheFirstFailure : Prop :=
  (∀ l i m s q t r, issueAll l s = .next q → q.status = 0 → transact (encode i) q.state = .next (t, r) → r.st ≠ 0 →
    issueAll (l ++ i :: m) s = .next ⟨t, r.st, q.values⟩) ∧
  (∀ l i s q t r, issueAll l s = .next q → q.status = 0 → transact (encode i) q.state = .next (t, r) → r.st = 0 →
    issueAll (l ++ [i]) s = .next ⟨t, 0, q.values ++ [r.rv]⟩) ∧
  ∀ p s q, issueAll p.expand s = .next q →
    runPseudo p s = .next ⟨q.state, q.status, if q.status = 0 then p.value q.values else .nothing⟩

/-- The generation sequences on a unit that is not constructed: with `n = 0` they issue nothing and give the empty
list, otherwise they end with `NotReady` at the first command and change nothing (spec/30_encoding.md R49 to R53). -/
def Obligations.GenerationNeedsAConstructedUnit : Prop :=
  ∀ (n w : Nat) (s : State) (v : PseudoValue → PseudoValue) (st : BitVec 4), s.rsp = none → 1 ≤ w → w ≤ 8 →
    (∀ e, v e = if n = 0 then e else .nothing) → st = (if n = 0 then 0 else 7) →
    (s.lcgRdy = false → ∃ t, t.architectural = s.architectural ∧
      runPseudo (.lcgGen n) s = .next ⟨t, st, v (.outputs [])⟩ ∧
      runPseudo (.lcgGenb n w) s = .next ⟨t, st, v (.bytes [])⟩) ∧
    (s.mtRdy = false → ∃ t, t.architectural = s.architectural ∧
      runPseudo (.mtGen n) s = .next ⟨t, st, v (.outputs [])⟩ ∧
      runPseudo (.mtGenb n) s = .next ⟨t, st, v (.bytes [])⟩)

/-- spec/30_encoding.md R52: `MT.GEN n` issues `MT.NEXT` `n` times and gives the responses in order, each below 2^32;
on a ready unit with a legal index it always ends with OK. -/
def Obligations.MtGenRepeatsMtNext : Prop :=
  ∀ (n : Nat) (s : State), s.rsp = none →
    runPseudo (.mtGen 0) s = .next ⟨s, 0, .outputs []⟩ ∧
    (∀ t r u vs, transact (encode .mtNext) s = .next (t, r) → r.st = 0 →
      runPseudo (.mtGen n) t = .next ⟨u, 0, .outputs vs⟩ →
      runPseudo (.mtGen (n + 1)) s = .next ⟨u, 0, .outputs (r.rv :: vs)⟩) ∧
    (s.mtRdy = true → s.mtIdx.toNat ≤ 624 →
      ∃ t vs, runPseudo (.mtGen n) s = .next ⟨t, 0, .outputs vs⟩ ∧ vs.length = n ∧ ∀ v ∈ vs, v.toNat < 2 ^ 32)

/-- spec/42_untemper.md R99, the stream law: `x` is the stream of raw words; after `n` outputs the state holds the
words of the last twist, and the outputs are the tempered stream from position 624 on.
The spec marks R99 as derived. -/
def Obligations.MtOutputsAreTheTemperedStream : Prop :=
  ∀ (s : State) (x : Nat → Word32) (n : Nat), s.rsp = none → s.mtRdy = true → s.mtIdx = 624 →
    (∀ j (h : j < 624), s.mtW[j] = x j) →
    (∀ j, x (j + 624) = x (j + 397) ^^^ twistG (x j) (x (j + 1))) →
    ∃ t, runPseudo (.mtGen n) s =
        .next ⟨t, 0, .outputs ((List.range n).map fun k => (temper (x (624 + k))).zeroExtend 64)⟩ ∧
      (∀ i (h : i < 624), t.mtW[i] = x (624 * ((n + 623) / 624) + i)) ∧
      (1 ≤ n → t.mtIdx.toNat = (n - 1) % 624 + 1) ∧
      t.architectural = { s.architectural with mtW := t.mtW, mtIdx := t.mtIdx }

/-- spec/42_untemper.md R100, the clone law: `E` has the raw stream `x`, `vs` are `p + 624 + n` outputs of `E`; the
clone built from outputs `p + 1` to `p + 624` in any second unit `K` holds the words `x (624 + p) ..` with the index at
624 and goes on with outputs `p + 625` to `p + 624 + n`, for every `p`. The spec marks R100 as derived. -/
def Obligations.MtCloneContinuesTheOriginal : Prop :=
  ∀ (E K E' : State) (x : Nat → Word32) (p n : Nat) (vs : List Word64) (ys : Vector Word64 624),
    E.rsp = none → E.mtRdy = true → E.mtIdx = 624 → K.rsp = none →
    (∀ j (h : j < 624), E.mtW[j] = x j) →
    (∀ j, x (j + 624) = x (j + 397) ^^^ twistG (x j) (x (j + 1))) →
    runPseudo (.mtGen (p + 624 + n)) E = .next ⟨E', 0, .outputs vs⟩ →
    ys.toList = (vs.drop p).take 624 →
    ∃ K' K'', runPseudo (.mtClone ys) K = .next ⟨K', 0, .nothing⟩ ∧
      (∀ i (h : i < 624), K'.mtW[i] = x (624 + p + i)) ∧ K'.mtIdx = 624 ∧
      runPseudo (.mtGen n) K' = .next ⟨K'', 0, .outputs (vs.drop (p + 624))⟩

/-- spec/30_encoding.md R58: `MT.CLONE` is OK exactly when every sample fits 32 bits, and then leaves the
untempered samples with the index at 624. The spec marks R58 as derived. -/
def Obligations.MtCloneLoadsTheUntemperedSamples : Prop :=
  ∀ (ys : Vector Word64 624) (s : State), s.rsp = none →
    ∃ q, runPseudo (.mtClone ys) s = .next q ∧
      (q.status = 0 ↔ ∀ i (h : i < 624), ys[i].toNat < 2 ^ 32) ∧
      (q.status = 0 → ∃ w : MtWords, (∀ i (h : i < 624), w[i] = untemper (ys[i].truncate 32)) ∧
        q.state.architectural = { s.architectural with mtW := w, mtIdx := 624, mtRdy := true })

/-- spec/30_encoding.md R56, R57: loading a complete state, and reading a complete state.
The spec marks R56 and R57 as derived. -/
def Obligations.MtStateLoadsAndReadsBack : Prop :=
  (∀ (ws : Vector Word64 624) (idx : Word64) (s : State), s.rsp = none →
    ∃ q, runPseudo (.mtLdstate ws idx) s = .next q ∧
      (q.status = 0 ↔ (∀ i (h : i < 624), ws[i].toNat < 2 ^ 32) ∧ idx.toNat ≤ 624) ∧
      (q.status = 0 → ∃ w : MtWords, (∀ i (h : i < 624), w[i] = ws[i].truncate 32) ∧
        q.state.architectural =
          { s.architectural with mtW := w, mtIdx := idx.truncate 10, mtRdy := true })) ∧
  (∀ s : State, s.rsp = none →
    ∃ t, runPseudo .mtRdstate s =
        .next ⟨t, 0, .mtState (s.mtW.toList.map fun w => w.zeroExtend 64) (s.mtIdx.zeroExtend 64)⟩ ∧
      t.architectural = s.architectural)

/-- spec/30_encoding.md R53 with spec/20_memory.md R32: `MT.GENB n` gives exactly `n` bytes, byte `i` being byte
`i mod 4` of output number `i / 4` of `MT.GEN`, of which it consumes exactly `ceil(n / 4)`. -/
def Obligations.MtGenbPacksTheOutputs : Prop :=
  ∀ (n : Nat) (s t : State) (vs : List Word64), s.rsp = none → s.mtRdy = true →
    runPseudo (.mtGen ((n + 3) / 4)) s = .next ⟨t, 0, .outputs vs⟩ →
    ∃ bs, runPseudo (.mtGenb n) s = .next ⟨t, 0, .bytes bs⟩ ∧ bs.length = n ∧
      ∀ i < n, bs[i]? = some ((vs.getD (i / 4) 0).extractLsb' (8 * (i % 4)) 8)
end

