-- ==== Sys2Proof/Laws/ByteStream.lean ====
section
/-! SUPPORT. The byte groups of the byte stream. -/

namespace Sys2Proof.Machine

@[simp] theorem bytesOf_length (v : Word64) (w : Nat) : (bytesOf v w).length = w := by simp [bytesOf]

theorem bytesOf_getElem? (v : Word64) (w j : Nat) (h : j < w) :
    (bytesOf v w)[j]? = some (v.extractLsb' (8 * j) 8) := by
  simp [bytesOf, h]

@[simp] theorem pack_nil (w n : Nat) : pack [] w n = [] := by simp [pack]

theorem outputsFor_zero (w : Nat) (h : 1 ≤ w) : outputsFor 0 w = 0 := by
  unfold outputsFor
  exact Nat.div_eq_of_lt (by omega)

/-- `ceil(n / w)` outputs give at least `n` bytes. -/
theorem le_outputsFor_mul (n w : Nat) (h : 1 ≤ w) : n ≤ outputsFor n w * w := by
  unfold outputsFor
  have h1 := Nat.div_add_mod (n + w - 1) w
  have h2 := Nat.mod_lt (n + w - 1) (show w > 0 by omega)
  rw [Nat.mul_comm]
  omega

end Sys2Proof.Machine
end

