-- ==== Sys2Proof/Laws/Decode.lean ====
section
/-! SUPPORT. The fields of a packed command word are the ones that were packed. -/

namespace Sys2Proof

theorem packWord_toNat (opc : BitVec 8) (idx : Index) :
    (packWord opc idx).toNat = opc.toNat * 2 ^ 24 + idx.toNat := by
  have h : (packWord opc idx).toNat = (opc.toNat <<< 14 ||| 0) <<< 10 ||| idx.toNat := by
    rw [packWord, BitVec.toNat_append, BitVec.toNat_append]
    rfl
  rw [h, Nat.or_zero, ← Nat.shiftLeft_add_eq_or_of_lt idx.isLt, Nat.shiftLeft_eq, Nat.shiftLeft_eq]
  omega

theorem packWord_opc (opc : BitVec 8) (idx : Index) (op : Word64) :
    (Command.mk (packWord opc idx) op).opc = opc := by
  apply BitVec.eq_of_toNat_eq
  have := idx.isLt
  have := opc.isLt
  simp only [Command.opc, BitVec.extractLsb'_toNat, packWord_toNat, Nat.shiftRight_eq_div_pow]
  omega

theorem packWord_rsv (opc : BitVec 8) (idx : Index) (op : Word64) :
    (Command.mk (packWord opc idx) op).rsv = 0 := by
  apply BitVec.eq_of_toNat_eq
  have := idx.isLt
  simp only [Command.rsv, BitVec.extractLsb'_toNat, packWord_toNat, Nat.shiftRight_eq_div_pow, BitVec.ofNat_eq_ofNat,
    BitVec.toNat_ofNat]
  omega

theorem packWord_idx (opc : BitVec 8) (idx : Index) (op : Word64) :
    (Command.mk (packWord opc idx) op).idx = idx := by
  apply BitVec.eq_of_toNat_eq
  have := idx.isLt
  simp only [Command.idx, BitVec.extractLsb'_toNat, packWord_toNat, Nat.shiftRight_eq_div_pow]
  omega

theorem indexLegal_iff (idx : Index) : indexLegal idx = true ↔ idx.toNat < 624 := by simp [indexLegal]

/-- The decoder sees only the three fields and passes the operand on. -/
theorem decode_of_fields {c : Command} {f : Format} {i : Instr} (hs : select c.opc c.idx c.op = some (f, i))
    (hr : c.rsv = 0) (hi : (f = .N ∧ c.idx = 0) ∨ (f = .X ∧ c.idx.toNat < 624)) : decode c = .ok i := by
  unfold decode
  rw [hs]
  rcases hi with ⟨rfl, h⟩ | ⟨rfl, h⟩
  · simp only [hr, h, ne_eq, not_true_eq_false, if_false]
  · simp only [hr, ne_eq, not_true_eq_false, if_false, (indexLegal_iff _).mpr h, if_true]

end Sys2Proof
end

