-- ==== Sys2Proof/Laws/State.lean ====
section
/-! SUPPORT. One lemma per field per named update of the state, true by `rfl`. -/

namespace Sys2Proof.Machine

@[simp] theorem clearLcgReady_lcgM (s : State) : (clearLcgReady s).lcgM = s.lcgM := rfl
@[simp] theorem clearLcgReady_lcgA (s : State) : (clearLcgReady s).lcgA = s.lcgA := rfl
@[simp] theorem clearLcgReady_lcgC (s : State) : (clearLcgReady s).lcgC = s.lcgC := rfl
@[simp] theorem clearLcgReady_lcgX (s : State) : (clearLcgReady s).lcgX = s.lcgX := rfl
@[simp] theorem clearLcgReady_lcgRdy (s : State) : (clearLcgReady s).lcgRdy = false := rfl
@[simp] theorem clearLcgReady_mtW (s : State) : (clearLcgReady s).mtW = s.mtW := rfl
@[simp] theorem clearLcgReady_mtIdx (s : State) : (clearLcgReady s).mtIdx = s.mtIdx := rfl
@[simp] theorem clearLcgReady_mtRdy (s : State) : (clearLcgReady s).mtRdy = s.mtRdy := rfl
@[simp] theorem clearLcgReady_rsp (s : State) : (clearLcgReady s).rsp = s.rsp := rfl
@[simp] theorem clearLcgReady_host (s : State) : (clearLcgReady s).host = s.host := rfl
@[simp] theorem clearLcgReady_taken (s : State) : (clearLcgReady s).taken = s.taken := rfl
@[simp] theorem clearLcgReady_resets (s : State) : (clearLcgReady s).resets = s.resets := rfl

@[simp] theorem setLcgReady_lcgM (s : State) : (setLcgReady s).lcgM = s.lcgM := rfl
@[simp] theorem setLcgReady_lcgA (s : State) : (setLcgReady s).lcgA = s.lcgA := rfl
@[simp] theorem setLcgReady_lcgC (s : State) : (setLcgReady s).lcgC = s.lcgC := rfl
@[simp] theorem setLcgReady_lcgX (s : State) : (setLcgReady s).lcgX = s.lcgX := rfl
@[simp] theorem setLcgReady_lcgRdy (s : State) : (setLcgReady s).lcgRdy = true := rfl
@[simp] theorem setLcgReady_mtW (s : State) : (setLcgReady s).mtW = s.mtW := rfl
@[simp] theorem setLcgReady_mtIdx (s : State) : (setLcgReady s).mtIdx = s.mtIdx := rfl
@[simp] theorem setLcgReady_mtRdy (s : State) : (setLcgReady s).mtRdy = s.mtRdy := rfl
@[simp] theorem setLcgReady_rsp (s : State) : (setLcgReady s).rsp = s.rsp := rfl
@[simp] theorem setLcgReady_host (s : State) : (setLcgReady s).host = s.host := rfl
@[simp] theorem setLcgReady_taken (s : State) : (setLcgReady s).taken = s.taken := rfl
@[simp] theorem setLcgReady_resets (s : State) : (setLcgReady s).resets = s.resets := rfl

@[simp] theorem setMtReady_lcgM (s : State) : (setMtReady s).lcgM = s.lcgM := rfl
@[simp] theorem setMtReady_lcgA (s : State) : (setMtReady s).lcgA = s.lcgA := rfl
@[simp] theorem setMtReady_lcgC (s : State) : (setMtReady s).lcgC = s.lcgC := rfl
@[simp] theorem setMtReady_lcgX (s : State) : (setMtReady s).lcgX = s.lcgX := rfl
@[simp] theorem setMtReady_lcgRdy (s : State) : (setMtReady s).lcgRdy = s.lcgRdy := rfl
@[simp] theorem setMtReady_mtW (s : State) : (setMtReady s).mtW = s.mtW := rfl
@[simp] theorem setMtReady_mtIdx (s : State) : (setMtReady s).mtIdx = s.mtIdx := rfl
@[simp] theorem setMtReady_mtRdy (s : State) : (setMtReady s).mtRdy = true := rfl
@[simp] theorem setMtReady_rsp (s : State) : (setMtReady s).rsp = s.rsp := rfl
@[simp] theorem setMtReady_host (s : State) : (setMtReady s).host = s.host := rfl
@[simp] theorem setMtReady_taken (s : State) : (setMtReady s).taken = s.taken := rfl
@[simp] theorem setMtReady_resets (s : State) : (setMtReady s).resets = s.resets := rfl

@[simp] theorem memWrite_lcgM (i : Index) (v : Word32) (s : State) : (memWrite i v s).lcgM = s.lcgM := rfl
@[simp] theorem memWrite_lcgA (i : Index) (v : Word32) (s : State) : (memWrite i v s).lcgA = s.lcgA := rfl
@[simp] theorem memWrite_lcgC (i : Index) (v : Word32) (s : State) : (memWrite i v s).lcgC = s.lcgC := rfl
@[simp] theorem memWrite_lcgX (i : Index) (v : Word32) (s : State) : (memWrite i v s).lcgX = s.lcgX := rfl
@[simp] theorem memWrite_lcgRdy (i : Index) (v : Word32) (s : State) : (memWrite i v s).lcgRdy = s.lcgRdy := rfl
@[simp] theorem memWrite_mtW (i : Index) (v : Word32) (s : State) : (memWrite i v s).mtW = s.mtW.setIfInBounds i.toNat v := rfl
@[simp] theorem memWrite_mtIdx (i : Index) (v : Word32) (s : State) : (memWrite i v s).mtIdx = s.mtIdx := rfl
@[simp] theorem memWrite_mtRdy (i : Index) (v : Word32) (s : State) : (memWrite i v s).mtRdy = s.mtRdy := rfl
@[simp] theorem memWrite_rsp (i : Index) (v : Word32) (s : State) : (memWrite i v s).rsp = s.rsp := rfl
@[simp] theorem memWrite_host (i : Index) (v : Word32) (s : State) : (memWrite i v s).host = s.host := rfl
@[simp] theorem memWrite_taken (i : Index) (v : Word32) (s : State) : (memWrite i v s).taken = s.taken := rfl
@[simp] theorem memWrite_resets (i : Index) (v : Word32) (s : State) : (memWrite i v s).resets = s.resets := rfl

@[simp] theorem refill_lcgM (s : State) : (refill s).lcgM = s.lcgM := rfl
@[simp] theorem refill_lcgA (s : State) : (refill s).lcgA = s.lcgA := rfl
@[simp] theorem refill_lcgC (s : State) : (refill s).lcgC = s.lcgC := rfl
@[simp] theorem refill_lcgX (s : State) : (refill s).lcgX = s.lcgX := rfl
@[simp] theorem refill_lcgRdy (s : State) : (refill s).lcgRdy = s.lcgRdy := rfl
@[simp] theorem refill_mtW (s : State) : (refill s).mtW = twist s.mtW := rfl
@[simp] theorem refill_mtIdx (s : State) : (refill s).mtIdx = 0 := rfl
@[simp] theorem refill_mtRdy (s : State) : (refill s).mtRdy = s.mtRdy := rfl
@[simp] theorem refill_rsp (s : State) : (refill s).rsp = s.rsp := rfl
@[simp] theorem refill_host (s : State) : (refill s).host = s.host := rfl
@[simp] theorem refill_taken (s : State) : (refill s).taken = s.taken := rfl
@[simp] theorem refill_resets (s : State) : (refill s).resets = s.resets := rfl

@[simp] theorem applyReset_lcgM (s : State) : (applyReset s).lcgM = 0 := rfl
@[simp] theorem applyReset_lcgA (s : State) : (applyReset s).lcgA = 0 := rfl
@[simp] theorem applyReset_lcgC (s : State) : (applyReset s).lcgC = 0 := rfl
@[simp] theorem applyReset_lcgX (s : State) : (applyReset s).lcgX = 0 := rfl
@[simp] theorem applyReset_lcgRdy (s : State) : (applyReset s).lcgRdy = false := rfl
@[simp] theorem applyReset_mtW (s : State) : (applyReset s).mtW = Config.mtWordsAfterReset s.resets := rfl
@[simp] theorem applyReset_mtIdx (s : State) : (applyReset s).mtIdx = 624 := rfl
@[simp] theorem applyReset_mtRdy (s : State) : (applyReset s).mtRdy = false := rfl
@[simp] theorem applyReset_rsp (s : State) : (applyReset s).rsp = none := rfl
@[simp] theorem applyReset_host (s : State) : (applyReset s).host = s.host := rfl
@[simp] theorem applyReset_taken (s : State) : (applyReset s).taken = s.taken := rfl
@[simp] theorem applyReset_resets (s : State) : (applyReset s).resets = s.resets + 1 := rfl

@[simp] theorem offer_lcgM (c : Command) (s : State) : (offer c s).lcgM = s.lcgM := rfl
@[simp] theorem offer_lcgA (c : Command) (s : State) : (offer c s).lcgA = s.lcgA := rfl
@[simp] theorem offer_lcgC (c : Command) (s : State) : (offer c s).lcgC = s.lcgC := rfl
@[simp] theorem offer_lcgX (c : Command) (s : State) : (offer c s).lcgX = s.lcgX := rfl
@[simp] theorem offer_lcgRdy (c : Command) (s : State) : (offer c s).lcgRdy = s.lcgRdy := rfl
@[simp] theorem offer_mtW (c : Command) (s : State) : (offer c s).mtW = s.mtW := rfl
@[simp] theorem offer_mtIdx (c : Command) (s : State) : (offer c s).mtIdx = s.mtIdx := rfl
@[simp] theorem offer_mtRdy (c : Command) (s : State) : (offer c s).mtRdy = s.mtRdy := rfl
@[simp] theorem offer_rsp (c : Command) (s : State) : (offer c s).rsp = none := rfl
@[simp] theorem offer_host (c : Command) (s : State) : (offer c s).host = .issue c :: s.host := rfl
@[simp] theorem offer_taken (c : Command) (s : State) : (offer c s).taken = s.taken := rfl
@[simp] theorem offer_resets (c : Command) (s : State) : (offer c s).resets = s.resets := rfl

@[simp] theorem resetWith_lcgM (events : List HostEvent) : (State.resetWith events).lcgM = State.reset.lcgM := rfl
@[simp] theorem resetWith_lcgA (events : List HostEvent) : (State.resetWith events).lcgA = State.reset.lcgA := rfl
@[simp] theorem resetWith_lcgC (events : List HostEvent) : (State.resetWith events).lcgC = State.reset.lcgC := rfl
@[simp] theorem resetWith_lcgX (events : List HostEvent) : (State.resetWith events).lcgX = State.reset.lcgX := rfl
@[simp] theorem resetWith_lcgRdy (events : List HostEvent) : (State.resetWith events).lcgRdy = State.reset.lcgRdy := rfl
@[simp] theorem resetWith_mtW (events : List HostEvent) : (State.resetWith events).mtW = State.reset.mtW := rfl
@[simp] theorem resetWith_mtIdx (events : List HostEvent) : (State.resetWith events).mtIdx = State.reset.mtIdx := rfl
@[simp] theorem resetWith_mtRdy (events : List HostEvent) : (State.resetWith events).mtRdy = State.reset.mtRdy := rfl
@[simp] theorem resetWith_rsp (events : List HostEvent) : (State.resetWith events).rsp = State.reset.rsp := rfl
@[simp] theorem resetWith_host (events : List HostEvent) : (State.resetWith events).host = events := rfl
@[simp] theorem resetWith_taken (events : List HostEvent) : (State.resetWith events).taken = State.reset.taken := rfl
@[simp] theorem resetWith_resets (events : List HostEvent) : (State.resetWith events).resets = State.reset.resets := rfl

@[simp] theorem reset_lcgM : State.reset.lcgM = 0 := rfl
@[simp] theorem reset_lcgA : State.reset.lcgA = 0 := rfl
@[simp] theorem reset_lcgC : State.reset.lcgC = 0 := rfl
@[simp] theorem reset_lcgX : State.reset.lcgX = 0 := rfl
@[simp] theorem reset_lcgRdy : State.reset.lcgRdy = false := rfl
@[simp] theorem reset_mtW : State.reset.mtW = Config.mtWordsAfterReset 0 := rfl
@[simp] theorem reset_mtIdx : State.reset.mtIdx = 624 := rfl
@[simp] theorem reset_mtRdy : State.reset.mtRdy = false := rfl
@[simp] theorem reset_rsp : State.reset.rsp = none := rfl
@[simp] theorem reset_host : State.reset.host = [] := rfl
@[simp] theorem reset_taken : State.reset.taken = [] := rfl
@[simp] theorem reset_resets : State.reset.resets = 1 := rfl

@[simp] theorem architectural_lcgM (s : State) : s.architectural.lcgM = s.lcgM := rfl
@[simp] theorem architectural_lcgA (s : State) : s.architectural.lcgA = s.lcgA := rfl
@[simp] theorem architectural_lcgC (s : State) : s.architectural.lcgC = s.lcgC := rfl
@[simp] theorem architectural_lcgX (s : State) : s.architectural.lcgX = s.lcgX := rfl
@[simp] theorem architectural_lcgRdy (s : State) : s.architectural.lcgRdy = s.lcgRdy := rfl
@[simp] theorem architectural_mtW (s : State) : s.architectural.mtW = s.mtW := rfl
@[simp] theorem architectural_mtIdx (s : State) : s.architectural.mtIdx = s.mtIdx := rfl
@[simp] theorem architectural_mtRdy (s : State) : s.architectural.mtRdy = s.mtRdy := rfl

/-- Two states with the same fields are the same state. -/
theorem State.eq_of_fields {s t : State} (ha : s.architectural = t.architectural) (hr : s.rsp = t.rsp)
    (hh : s.host = t.host) (ht : s.taken = t.taken) (hn : s.resets = t.resets) : s = t := by
  cases s; cases t
  simp only [State.architectural, Architectural.mk.injEq] at ha
  simp_all

end Sys2Proof.Machine
end

