-- ==== Sys2Proof/Laws/Memory.lean ====
section
/-! SUPPORT. The word array: reading after writing, and the form in which the array is held. -/

namespace Sys2Proof.Machine

theorem wordAt_of_lt (w : MtWords) {i : Nat} (h : i < 624) : wordAt w i = w[i] := by
  simp [wordAt, h]

/-- A legal index reads the word it names. -/
theorem memRead_of_lt {i : Index} (s : State) (h : i.toNat < 624) : memRead i s = some (s.mtW[i.toNat]'h) := by
  simp [memRead, h]

/-- An index of 624 or more addresses nothing (spec/20_memory.md R27). -/
theorem memRead_of_ge {i : Index} (s : State) (h : 624 ≤ i.toNat) : memRead i s = none := by
  simp [memRead, h]

theorem memRead_eq_none_iff {i : Index} (s : State) : memRead i s = none ↔ 624 ≤ i.toNat := by
  simp [memRead]

theorem memRead_write_self {i : Index} (v : Word32) (s : State) (h : i.toNat < 624) :
    memRead i (memWrite i v s) = some v := by
  simp [memRead, memWrite, h]

theorem memRead_write_other {i j : Index} (v : Word32) (s : State) (h : i ≠ j) :
    memRead j (memWrite i v s) = memRead j s := by
  have hne : i.toNat ≠ j.toNat := fun e => h (BitVec.eq_of_toNat_eq e)
  simp [memRead, memWrite, hne]

/-- There is no wrap-around: a write outside the array changes nothing (spec/20_memory.md R27). -/
theorem memWrite_of_ge {i : Index} (v : Word32) (s : State) (h : 624 ≤ i.toNat) : memWrite i v s = s := by
  have : s.mtW.setIfInBounds i.toNat v = s.mtW := by
    apply Vector.ext
    intro k hk
    simp only [Vector.getElem_setIfInBounds]
    split
    · omega
    · rfl
  simp [memWrite, this]

/-- The array has one form: equal contents are equal data. -/
theorem mtW_eq_of_memRead {s t : State} (h : ∀ i, memRead i s = memRead i t) : s.mtW = t.mtW := by
  apply Vector.ext
  intro k hk
  have hk' : (BitVec.ofNat 10 k).toNat = k := by simp; omega
  have := h (BitVec.ofNat 10 k)
  simp only [memRead, hk'] at this
  simpa [hk] using this

theorem tabulate_getElem (f : Nat → Word32) (i : Nat) (h : i < 624) : (tabulate f)[i] = f i := by
  simp [tabulate]

/-- A register array that a reset left reads as the parameter `MT_W_RESET` (spec/10_state.md R14). -/
theorem mtWordsAfterReset_getElem (n i : Nat) (h : i < 624) :
    (Config.mtWordsAfterReset n)[i] = Config.mtWReset n i := by
  simp [Config.mtWordsAfterReset, tabulate_getElem]

end Sys2Proof.Machine
end

