-- ==== Sys2Proof/Laws/Ops.lean ====
section
/-! SUPPORT. What each shared operation can do, said once. -/

namespace Sys2Proof.Machine

/-! ### The status codes -/

@[simp] theorem code_ok : Status.ok.code = 0 := rfl
@[simp] theorem code_invalidParameters : Status.invalidParameters.code = 4 := rfl
@[simp] theorem code_illegalCommand : Status.illegalCommand.code = 6 := rfl
@[simp] theorem code_notReady : Status.notReady.code = 7 := rfl

theorem Status.code_injective {a b : Status} (h : a.code = b.code) : a = b := by
  cases a <;> cases b <;> first | rfl | (exact absurd h (by decide))

/-! ### Responding and raising -/

theorem respond_next_iff {st : Status} {rv : Word64} {s t : State} :
    respond st rv s = .next t ↔ t = { s with rsp := some ⟨st.code, rv⟩ } := by
  simp [respond, eq_comm]

theorem raise_next_iff {kind : Status} {s t : State} :
    raise kind s = .next t ↔ t = { s with rsp := some ⟨kind.code, 0⟩ } := respond_next_iff

@[simp] theorem respond_ne_fault {st : Status} {rv : Word64} {s : State} {f : Fault} :
    respond st rv s ≠ .fault f := by simp [respond]

@[simp] theorem respond_ne_refused {st : Status} {rv : Word64} {s : State} {r : Refusal} :
    respond st rv s ≠ .refused r := by simp [respond]

@[simp] theorem raise_ne_fault {k : Status} {s : State} {f : Fault} : raise k s ≠ .fault f := respond_ne_fault

@[simp] theorem raise_ne_refused {k : Status} {s : State} {r : Refusal} : raise k s ≠ .refused r :=
  respond_ne_refused

/-! ### The operands -/

theorem operandU32_eq (op : Word64) :
    operandU32 op = if op.toNat < 2 ^ 32 then some (op.setWidth 32) else none := by
  have hz : op.extractLsb' 32 32 = 0 ↔ op.toNat < 2 ^ 32 := by
    rw [← BitVec.toNat_inj]
    simp only [BitVec.extractLsb'_toNat, Nat.shiftRight_eq_div_pow, BitVec.toNat_ofNat, BitVec.ofNat_eq_ofNat]
    have := op.isLt
    omega
  have hv : op.extractLsb' 0 32 = op.setWidth 32 := by
    apply BitVec.eq_of_toNat_eq
    simp
  simp only [operandU32, hz, hv]

theorem operandIdx625_eq (op : Word64) :
    operandIdx625 op = if op.toNat ≤ 624 then some (op.setWidth 10) else none := by
  have hv : op.extractLsb' 0 10 = op.setWidth 10 := by
    apply BitVec.eq_of_toNat_eq
    simp
  simp only [operandIdx625, hv]

/-! ### The checks -/

theorem whenIndexLegal_eq (idx : Index) (s : State) (body : Result) :
    whenIndexLegal idx s body = if idx.toNat < 624 then body else raise .illegalCommand s := by
  simp [whenIndexLegal, indexLegal]

theorem withU32_eq (op : Word64) (s : State) (body : Word32 → Result) :
    withU32 op s body =
      if op.toNat < 2 ^ 32 then body (op.setWidth 32) else raise .invalidParameters s := by
  unfold withU32
  rw [operandU32_eq]
  split <;> simp_all

theorem withIdx625_eq (op : Word64) (s : State) (body : Index → Result) :
    withIdx625 op s body =
      if op.toNat ≤ 624 then body (op.setWidth 10) else raise .invalidParameters s := by
  unfold withIdx625
  rw [operandIdx625_eq]
  split <;> simp_all

theorem whenLcgReady_eq (s : State) (body : Result) :
    whenLcgReady s body = if s.lcgRdy = true then body else raise .notReady s := rfl

theorem whenMtReady_eq (s : State) (body : Result) :
    whenMtReady s body = if s.mtRdy = true then body else raise .notReady s := rfl

/-! ### The response channel and the host's events -/

theorem takeResponse_next_iff {s t : State} :
    takeResponse s = .next t ↔ ∃ r, s.rsp = some r ∧ t = { s with rsp := none, taken := s.taken ++ [r] } := by
  unfold takeResponse
  split <;> simp_all [eq_comm]

theorem takeResponse_ne_fault {s : State} {f : Fault} : takeResponse s ≠ .fault f := by
  unfold takeResponse
  split <;> simp

theorem issue_eq (c : Command) (s : State) :
    issue c s = if s.rsp = none then execute c s else .refused .overlappingCommand := by
  unfold issue
  split <;> simp_all

/-- Everything a step can do. -/
theorem step_cases (s : State) :
    (s.host = [] ∧ step s = .next s) ∨
    (∃ c rest, s.host = .issue c :: rest ∧ step s = issue c { s with host := rest }) ∨
    (∃ rest, s.host = .take :: rest ∧ step s = takeResponse { s with host := rest }) ∨
    (∃ rest, s.host = .reset :: rest ∧ step s = .next (applyReset { s with host := rest })) := by
  unfold step
  rcases hh : s.host with _ | ⟨e, rest⟩
  · exact .inl ⟨rfl, rfl⟩
  · cases e with
    | issue c => exact .inr (.inl ⟨c, rest, rfl, rfl⟩)
    | take => exact .inr (.inr (.inl ⟨rest, rfl, rfl⟩))
    | reset => exact .inr (.inr (.inr ⟨rest, rfl, rfl⟩))

end Sys2Proof.Machine
end

