-- ==== Sys2Proof/Laws/Twister.lean ====
section
/-! SUPPORT. What the twist and the seeding do, word by word, and a form of the twist that evaluates fast. -/

namespace Sys2Proof.Machine

/-! ### One pass and the first `n` passes -/

theorem twistPass_getElem (w : MtWords) (i : Fin 624) (j : Nat) (hj : j < 624) :
    (twistPass w i)[j] =
      if i.val = j then
        w[(i.val + 397) % 624]'(Nat.mod_lt _ (by decide)) ^^^
          twistG (w[i.val]'i.isLt) (w[(i.val + 1) % 624]'(Nat.mod_lt _ (by decide)))
      else w[j] := by
  simp only [twistPass, Vector.getElem_set, mtM]

theorem twistPasses_zero (w : MtWords) (h : 0 ≤ 624) : twistPasses w 0 h = w := by with_unfolding_all rfl

theorem twistPasses_succ (w : MtWords) (n : Nat) (h : n + 1 ≤ 624) :
    twistPasses w (n + 1) h = twistPass (twistPasses w n (Nat.le_of_succ_le h)) ⟨n, h⟩ := by
  with_unfolding_all rfl

/-- Words below `n` are new, the others are old, where `x` is the stream of raw words: `x` starts with the old
words and goes on by the recurrence of spec/41_mt_engine.md R81 (`O` is `x 0 ..`, `N` is `x 624 ..`). -/
theorem twistPasses_getElem (w : MtWords) (x : Nat → Word32) (hold : ∀ j (h : j < 624), x j = w[j])
    (hrec : ∀ j < 624, x (624 + j) = x (j + 397) ^^^ twistG (x j) (x (j + 1))) :
    ∀ n (hn : n ≤ 624) j (hj : j < 624),
      (twistPasses w n hn)[j] = if j < n then x (624 + j) else x j := by
  intro n
  induction n with
  | zero => intro _ j hj; simp [twistPasses_zero, hold j hj]
  | succ n ih =>
    intro hn j hj
    have hget := ih (Nat.le_of_succ_le hn)
    rw [twistPasses_succ, twistPass_getElem]
    by_cases hnj : n = j
    · subst hnj
      have hm : (twistPasses w n (Nat.le_of_succ_le hn))[(n + 397) % 624]'(Nat.mod_lt _ (by decide)) =
          x (n + 397) := by
        rw [hget _ (Nat.mod_lt _ (by decide))]
        by_cases h : n + 397 < 624
        · have e : (n + 397) % 624 = n + 397 := Nat.mod_eq_of_lt h
          simp [e]
        · have e : (n + 397) % 624 = n - 227 := by omega
          rw [e, if_pos (by omega)]
          exact congrArg x (by omega)
      have hl : (twistPasses w n (Nat.le_of_succ_le hn))[(n + 1) % 624]'(Nat.mod_lt _ (by decide)) =
          x (n + 1) := by
        rw [hget _ (Nat.mod_lt _ (by decide))]
        by_cases h : n + 1 < 624
        · have e : (n + 1) % 624 = n + 1 := Nat.mod_eq_of_lt h
          simp [e]
        · have e : (n + 1) % 624 = 0 := by omega
          rw [e, if_pos (by omega)]
          exact congrArg x (by omega)
      have hh := hget n hj
      rw [if_neg (by omega)] at hh
      simp only [if_true, Nat.lt_succ_self, hm, hl, hh, hrec n hj]
    · have hne : (⟨n, hn⟩ : Fin 624).val ≠ j := hnj
      rw [if_neg hne, hget j hj]
      by_cases h : j < n
      · rw [if_pos h, if_pos (by omega)]
      · rw [if_neg h, if_neg (by omega)]

/-- All that the twist does: new word `j` is `x (624 + j)`. -/
theorem twist_getElem (w : MtWords) (x : Nat → Word32) (hold : ∀ j (h : j < 624), x j = w[j])
    (hrec : ∀ j < 624, x (624 + j) = x (j + 397) ^^^ twistG (x j) (x (j + 1))) (j : Nat) (hj : j < 624) :
    (twist w)[j] = x (624 + j) := by
  rw [twist, twistPasses_getElem w x hold hrec 624 (Nat.le_refl _) j hj, if_pos hj]

/-! ### The stream of raw words of a state -/

/-- The words of `w`, continued for ever by the recurrence. -/
def rawStream (w : MtWords) (j : Nat) : Word32 :=
  if h : j < 624 then w[j]
  else rawStream w (j - 227) ^^^ twistG (rawStream w (j - 624)) (rawStream w (j - 623))
termination_by j

theorem rawStream_of_lt (w : MtWords) (j : Nat) (h : j < 624) : rawStream w j = w[j] := by
  rw [rawStream, dif_pos h]

theorem rawStream_add (w : MtWords) (j : Nat) :
    rawStream w (624 + j) =
      rawStream w (j + 397) ^^^ twistG (rawStream w j) (rawStream w (j + 1)) := by
  rw [rawStream, dif_neg (by omega), show 624 + j - 227 = j + 397 by omega, show 624 + j - 624 = j by omega,
    show 624 + j - 623 = j + 1 by omega]

theorem twist_getElem_rawStream (w : MtWords) (j : Nat) (hj : j < 624) :
    (twist w)[j] = rawStream w (624 + j) :=
  twist_getElem w (rawStream w) (rawStream_of_lt w) (fun j _ => rawStream_add w j) j hj

/-! ### A form of the twist that evaluates fast, for the tests -/

/-- The twist by whole lists: `g j = G(O[j], O[j + 1])`, then words 0 to 226, 227 to 453, 454 to 622, and 623. -/
def fastTwist (o : List Word32) : List Word32 :=
  let g := List.zipWith twistG o (o.drop 1)
  let a := List.zipWith (· ^^^ ·) (o.drop 397) g
  let b := List.zipWith (· ^^^ ·) a (g.drop 227)
  let c := List.zipWith (· ^^^ ·) b (g.drop 454)
  a ++ (b ++ (c ++ [b.getD 169 0 ^^^ twistG (o.getD 623 0) (a.getD 0 0)]))

theorem fastTwist_length (o : List Word32) (ho : o.length = 624) : (fastTwist o).length = 624 := by
  simp [fastTwist, ho]

/-- The list form satisfies the recurrence. -/
theorem fastTwist_recurrence (o : List Word32) (ho : o.length = 624) (j : Nat) (hj : j < 624) :
    (o ++ fastTwist o).getD (624 + j) 0 =
      (o ++ fastTwist o).getD (j + 397) 0 ^^^
        twistG ((o ++ fastTwist o).getD j 0) ((o ++ fastTwist o).getD (j + 1) 0) := by
  have hx : ∀ (f : Word32 → Word32 → Word32) (l m : List Word32) (k : Nat), k < l.length → k < m.length →
      (List.zipWith f l m).getD k 0 = f (l.getD k 0) (m.getD k 0) := by
    intro f l m k hl hm
    simp [List.getD_eq_getElem?_getD, hl, hm]
  have hd : ∀ (l : List Word32) (n k : Nat), (l.drop n).getD k 0 = l.getD (n + k) 0 := by
    intro l n k
    simp [List.getD_eq_getElem?_getD]
  have hl : ∀ (l m : List Word32) (k : Nat), k < l.length → (l ++ m).getD k 0 = l.getD k 0 := by
    intro l m k h
    simp [List.getD_eq_getElem?_getD, List.getElem?_append_left h]
  have hr : ∀ (l m : List Word32) (k : Nat), l.length ≤ k → (l ++ m).getD k 0 = m.getD (k - l.length) 0 := by
    intro l m k h
    simp [List.getD_eq_getElem?_getD, List.getElem?_append_right h]
  rw [hr o _ (624 + j) (by omega), hl o _ j (by omega), ho, Nat.add_sub_cancel_left]
  simp only [fastTwist]
  generalize hg : List.zipWith twistG o (o.drop 1) = g
  have hgl : g.length = 623 := by simp [← hg, ho]
  have hgj : ∀ k < 623, g.getD k 0 = twistG (o.getD k 0) (o.getD (k + 1) 0) := by
    intro k hk
    rw [← hg, hx _ _ _ _ (by omega) (by simp [ho]; omega), hd, Nat.add_comm 1 k]
  generalize ha : List.zipWith (· ^^^ ·) (o.drop 397) g = a
  have hal : a.length = 227 := by simp [← ha, ho, hgl]
  have haj : ∀ k < 227, a.getD k 0 = o.getD (397 + k) 0 ^^^ g.getD k 0 := by
    intro k hk
    rw [← ha, hx _ _ _ _ (by simp [ho]; omega) (by omega), hd]
  generalize hb : List.zipWith (· ^^^ ·) a (g.drop 227) = b
  have hbl : b.length = 227 := by simp [← hb, hal, hgl]
  have hbj : ∀ k < 227, b.getD k 0 = a.getD k 0 ^^^ g.getD (227 + k) 0 := by
    intro k hk
    rw [← hb, hx _ _ _ _ (by omega) (by simp [hgl]; omega), hd]
  generalize hc : List.zipWith (· ^^^ ·) b (g.drop 454) = c
  have hcl : c.length = 169 := by simp [← hc, hbl, hgl]
  have hcj : ∀ k < 169, c.getD k 0 = b.getD k 0 ^^^ g.getD (454 + k) 0 := by
    intro k hk
    rw [← hc, hx _ _ _ _ (by omega) (by simp [hgl]; omega), hd]
  rcases Nat.lt_or_ge j 227 with h1 | h1
  · rw [hl a _ j (by omega), haj j h1, hgj j (by omega), hl o _ (j + 397) (by omega), hl o _ (j + 1) (by omega),
      Nat.add_comm 397 j]
  rcases Nat.lt_or_ge j 454 with h2 | h2
  · rw [hr a _ j (by omega), hal, hl b _ _ (by omega), hbj _ (by omega), Nat.add_sub_cancel' h1,
      hgj j (by omega), hr o _ (j + 397) (by omega), ho, hl o _ (j + 1) (by omega), hl a _ _ (by omega),
      show j + 397 - 624 = j - 227 by omega]
  rcases Nat.lt_or_ge j 623 with h3 | h3
  · rw [hr a _ j (by omega), hal, hr b _ _ (by omega), hbl, hl c _ _ (by omega), hcj _ (by omega),
      show 454 + (j - 227 - 227) = j by omega,
      hgj j (by omega), hr o _ (j + 397) (by omega), ho, hl o _ (j + 1) (by omega), hr a _ _ (by omega), hal,
      hl b _ _ (by omega), show j + 397 - 624 - 227 = j - 227 - 227 by omega]
  · obtain rfl : j = 623 := by omega
    rw [hr a _ 623 (by omega), hal, hr b _ _ (by omega), hbl, hr c _ _ (by omega), hcl,
      hr o _ (623 + 397) (by omega), ho, hr a _ _ (by omega), hal, hl b _ _ (by omega),
      hr o _ (623 + 1) (by omega), ho, hl a _ _ (by omega)]
    rfl

theorem twist_toList (w : MtWords) : (twist w).toList = fastTwist w.toList := by
  have hlen : w.toList.length = 624 := by simp
  have hold : ∀ j (h : j < 624), (w.toList ++ fastTwist w.toList).getD j 0 = w[j] := by
    intro j h
    rw [List.getD_eq_getElem?_getD, List.getElem?_append_left (by simpa using h)]
    simp [h]
  apply List.ext_getElem
  · simp [fastTwist_length _ hlen]
  intro j hj hj'
  have h : j < 624 := by simpa using hj
  have := twist_getElem w _ hold (fastTwist_recurrence w.toList hlen) j h
  rw [Vector.getElem_toList, this, List.getD_eq_getElem?_getD, List.getElem?_append_right (by simp [hlen])]
  simp [hlen, hj']

/-- One word of the twist by the fast form. -/
theorem twist_getElem_fast (w : MtWords) (j : Nat) (hj : j < 624) :
    (twist w)[j] = (fastTwist w.toList).getD j 0 := by
  have h : j < (twist w).toList.length := by simpa using hj
  rw [← Vector.getElem_toList (h := h), List.getD_eq_getElem?_getD, ← twist_toList, List.getElem?_eq_getElem h,
    Option.getD_some]

/-! ### Seeding (spec/41_mt_engine.md R82) -/

theorem seedWords_getElem (seed : Word32) (i : Nat) (h : i < 624) : (seedWords seed)[i] = seedWord seed i :=
  tabulate_getElem _ i h

end Sys2Proof.Machine
end

