-- ==== Sys2Proof/Laws/Exec.lean ====
section
/-! SUPPORT. Small facts about the meanings that many proofs need. -/

namespace Sys2Proof.Machine

/-! ### The refill of `MT.NEXT` -/

theorem refillIfSpent_of_spent {s : State} (h : s.mtIdx = 624) : refillIfSpent s = refill s := if_pos h

theorem refillIfSpent_of_not_spent {s : State} (h : s.mtIdx ≠ 624) : refillIfSpent s = s := if_neg h

/-- The LCG step as a number (spec/40_lcg.md R60). -/
theorem lcgStep_toNat {m a c x : Word64} (hm : m ≠ 0) :
    (lcgStep m a c x).toNat = (a.toNat * x.toNat + c.toNat) % m.toNat := by
  have hm' : 0 < m.toNat := Nat.pos_of_ne_zero fun h => hm (BitVec.eq_of_toNat_eq h)
  have h1 := Nat.mod_lt (a.toNat * x.toNat + c.toNat) hm'
  have h2 := m.isLt
  simp only [lcgStep, BitVec.toNat_ofNat]
  omega

/-- The remainder lies below the modulus, so it is a state of the generator. -/
theorem lcgStep_lt {m a c x : Word64} (hm : m ≠ 0) : (lcgStep m a c x).toNat < m.toNat := by
  rw [lcgStep_toNat hm]
  exact Nat.mod_lt _ (Nat.pos_of_ne_zero fun h => hm (BitVec.eq_of_toNat_eq h))

/-! ### From a command to its meaning -/

theorem execute_of_ok {c : Command} {i : Instr} (h : decode c = .ok i) (s : State) : execute c s = exec i s := by
  simp [execute, h]

theorem execute_of_error {c : Command} {e : DecodeError} (h : decode c = .error e) (s : State) :
    execute c s = raise .illegalCommand s := by
  simp [execute, h]

/-- The command word of an indexed command, written as in spec/30_encoding.md R39, has its two fields. -/
theorem opcode_add_index (opc : BitVec 8) (idx : Index) (base : Word32) (hb : base.toNat = opc.toNat * 2 ^ 24) :
    base + idx.zeroExtend 32 = packWord opc idx := by
  apply BitVec.eq_of_toNat_eq
  have := idx.isLt
  have := opc.isLt
  rw [packWord_toNat, BitVec.toNat_add]
  simp
  omega

end Sys2Proof.Machine
end

