-- ==== Sys2Proof/Laws/PerInstr.lean ====
section
/-! SUPPORT. Facts about every instruction as syntax, one lemma per constructor. -/

namespace Sys2Proof.Laws.EncodeFields

/-- The fields of the encoded command word are the instruction's own (spec/30_encoding.md R37 to R39, R48). -/
def Statement (i : Instr) : Prop :=
  (encode i).opc = i.opcode ∧ (encode i).rsv = 0 ∧ (encode i).idx = i.idxField ∧ (encode i).op = i.operand

theorem of_pack (i : Instr) : Statement i :=
  ⟨packWord_opc _ _ _, packWord_rsv _ _ _, packWord_idx _ _ _, rfl⟩

theorem sysRdstat : Statement (.sysRdstat) := of_pack _
theorem lcgLdm (op : Word64) : Statement (.lcgLdm op) := of_pack _
theorem lcgLda (op : Word64) : Statement (.lcgLda op) := of_pack _
theorem lcgLdc (op : Word64) : Statement (.lcgLdc op) := of_pack _
theorem lcgInit (op : Word64) : Statement (.lcgInit op) := of_pack _
theorem lcgRdm : Statement (.lcgRdm) := of_pack _
theorem lcgRda : Statement (.lcgRda) := of_pack _
theorem lcgRdc : Statement (.lcgRdc) := of_pack _
theorem lcgRdx : Statement (.lcgRdx) := of_pack _
theorem lcgNext : Statement (.lcgNext) := of_pack _
theorem mtSeed (op : Word64) : Statement (.mtSeed op) := of_pack _
theorem mtLdw (idx : Index) (op : Word64) : Statement (.mtLdw idx op) := of_pack _
theorem mtLdu (idx : Index) (op : Word64) : Statement (.mtLdu idx op) := of_pack _
theorem mtLdi (op : Word64) : Statement (.mtLdi op) := of_pack _
theorem mtRdw (idx : Index) : Statement (.mtRdw idx) := of_pack _
theorem mtRdi : Statement (.mtRdi) := of_pack _
theorem mtTwist : Statement (.mtTwist) := of_pack _
theorem mtNext : Statement (.mtNext) := of_pack _
theorem tmpTemper (op : Word64) : Statement (.tmpTemper op) := of_pack _
theorem tmpUntemper (op : Word64) : Statement (.tmpUntemper op) := of_pack _

end Sys2Proof.Laws.EncodeFields
end

