-- ==== Sys2Proof/Laws/Pseudo.lean ====
section
/-! SUPPORT. How a sequence of commands runs, one command at a time. -/

namespace Sys2Proof.Machine

theorem transact_of_next {c : Command} {s t : State} {r : Response} (hn : s.rsp = none)
    (he : execute c s = .next t) (hr : t.rsp = some r) :
    transact c s = .next ({ t with rsp := none, taken := t.taken ++ [r] }, r) := by
  simp [transact, issue, hn, he, hr]

@[simp] theorem issueAll_nil (s : State) : issueAll [] s = .next ⟨s, 0, []⟩ := rfl

theorem issueAll_cons_ok {i : Instr} {rest : List Instr} {s t : State} {r : Response}
    (ht : transact (encode i) s = .next (t, r)) (hr : r.st = 0) {q : SequenceResult}
    (hq : issueAll rest t = .next q) :
    issueAll (i :: rest) s = .next { q with values := r.rv :: q.values } := by
  rw [issueAll, ht]
  simp only [code_ok, if_pos hr, hq]

/-- The first status other than OK ends the sequence (spec/30_encoding.md R49). -/
theorem issueAll_cons_failed {i : Instr} {rest : List Instr} {s t : State} {r : Response}
    (ht : transact (encode i) s = .next (t, r)) (hr : r.st ≠ 0) :
    issueAll (i :: rest) s = .next ⟨t, r.st, []⟩ := by
  rw [issueAll, ht]
  exact if_neg hr

/-- Two sequences one after the other. -/
theorem issueAll_append {l m : List Instr} {s : State} {q : SequenceResult} (hl : issueAll l s = .next q)
    (hq : q.status = 0) {p : SequenceResult} (hm : issueAll m q.state = .next p) :
    issueAll (l ++ m) s = .next { p with values := q.values ++ p.values } := by
  induction l generalizing s q with
  | nil =>
    simp only [issueAll_nil, Host.Outcome.next.injEq] at hl
    subst hl
    simpa using hm
  | cons i rest ih =>
    rcases ht : transact (encode i) s with ⟨t, r⟩ | f | e
    · by_cases hr : r.st = 0
      · rcases hrest : issueAll rest t with q' | f | e
        · rw [issueAll_cons_ok ht hr hrest] at hl
          obtain rfl : { q' with values := r.rv :: q'.values } = q := by simpa using hl
          rw [List.cons_append, issueAll_cons_ok ht hr (ih hrest hq hm)]
          rfl
        · simp [issueAll, ht, hr, hrest] at hl
        · simp [issueAll, ht, hr, hrest] at hl
      · rw [issueAll_cons_failed ht hr] at hl
        obtain rfl : (⟨t, r.st, []⟩ : SequenceResult) = q := by simpa using hl
        exact absurd hq hr
    · simp [issueAll, ht] at hl
    · simp [issueAll, ht] at hl

end Sys2Proof.Machine
end

