-- ==== Sys2Proof/Laws/Tempering.lean ====
section
/-! SUPPORT. The inversions of the tempering steps, round by round and bit by bit. -/

namespace Sys2Proof.Machine

@[simp] theorem invRightRound_zero (y : Word32) (k : Nat) (mask : Word32) : invRightRound y k mask 0 = y := rfl

theorem invRightRound_succ (y : Word32) (k : Nat) (mask : Word32) (j : Nat) :
    invRightRound y k mask (j + 1) = y ^^^ ((invRightRound y k mask j >>> k) &&& mask) := rfl

@[simp] theorem invLeftRound_zero (y : Word32) (k : Nat) (mask : Word32) : invLeftRound y k mask 0 = y := rfl

theorem invLeftRound_succ (y : Word32) (k : Nat) (mask : Word32) (j : Nat) :
    invLeftRound y k mask (j + 1) = y ^^^ ((invLeftRound y k mask j <<< k) &&& mask) := rfl

/-- With `J = ceil(32 / k) − 1`, `k * (J + 1)` covers all 32 bits. -/
theorem inversionRounds_covers {k : Nat} (hk : 1 ≤ k) (hk' : k ≤ 31) : 32 ≤ k * (inversionRounds k + 1) := by
  unfold inversionRounds
  interval_cases k <;> decide

/-- `withBit` sets one bit and keeps the others. -/
theorem withBit_getLsbD (v : Word32) (i : Nat) (b : Bool) (j : Nat) (hi : i < 32) (hj : j < 32) :
    (withBit v i b).getLsbD j = if j = i then b else v.getLsbD j := by
  simp only [withBit, BitVec.getLsbD_or, BitVec.getLsbD_and, BitVec.getLsbD_not, BitVec.getLsbD_shiftLeft,
    BitVec.getLsbD_setWidth, BitVec.getLsbD_ofBool, BitVec.getLsbD_one, BitVec.truncate_eq_setWidth]
  rcases Nat.lt_trichotomy j i with h | h | h
  · simp [h, hj, Nat.ne_of_lt h]
  · subst h
    simp [hj]
  · have h1 : ¬ j < i := by omega
    have h2 : j - i ≠ 0 := by omega
    have h3 : j ≠ i := by omega
    simp [h1, h2, h3, hj]

end Sys2Proof.Machine
end

