-- ==== Sys2Proof/Tests/Slice0.lean ====
section
/-! SUPPORT. Tests on fixed values, each from spec/95_test_vectors.md or an example of a rule, and for every claim with
hypotheses a witness that meets them together. -/

namespace Sys2Proof.Tests

open Sys2Proof.Machine

/-! ### Helpers -/

def rspOf : Result → Option Response
  | .next t => t.rsp
  | .fault _ => none
  | .refused _ => none

def stateOf : Result → State
  | .next t => t
  | .fault _ => State.reset
  | .refused _ => State.reset

def zeroWords : MtWords := tabulate fun _ => 0

/-- A state with no unknown word, nothing constructed. -/
def blank : State := { State.reset with mtW := zeroWords }

def lcgWith (m a c x : Word64) : State := { blank with lcgM := m, lcgA := a, lcgC := c, lcgX := x, lcgRdy := true }

def mtWith (w : MtWords) (idx : Index) : State := { blank with mtW := w, mtIdx := idx, mtRdy := true }

/-! ### WellFormed refuses -/

theorem test_wf_refuses_mtLdw_624 : (Instr.mtLdw 624 0).wf = false := by decide
theorem test_wf_refuses_mtLdu_624 : (Instr.mtLdu 624 0).wf = false := by decide
theorem test_wf_refuses_mtRdw_1023 : (Instr.mtRdw 1023).wf = false := by decide
theorem test_wf_accepts_mtRdw_623 : (Instr.mtRdw 623).wf = true := by decide

/-! ### Decoding: every command from its word in R42; the illegal words of L2-10 -/

theorem test_decode_sysRdstat : decode ⟨0x01000000, 0x1234⟩ = .ok .sysRdstat := by decide
theorem test_decode_lcgLdm : decode ⟨0x10000000, 0x7FFFFFFF⟩ = .ok (.lcgLdm 0x7FFFFFFF) := by decide
theorem test_decode_lcgLda : decode ⟨0x11000000, 3⟩ = .ok (.lcgLda 3) := by decide
theorem test_decode_lcgLdc : decode ⟨0x12000000, 3⟩ = .ok (.lcgLdc 3) := by decide
theorem test_decode_lcgInit : decode ⟨0x13000000, 42⟩ = .ok (.lcgInit 42) := by decide
theorem test_decode_lcgRdm : decode ⟨0x14000000, 0⟩ = .ok .lcgRdm := by decide
theorem test_decode_lcgRda : decode ⟨0x15000000, 0⟩ = .ok .lcgRda := by decide
theorem test_decode_lcgRdc : decode ⟨0x16000000, 0⟩ = .ok .lcgRdc := by decide
theorem test_decode_lcgRdx : decode ⟨0x17000000, 0⟩ = .ok .lcgRdx := by decide
theorem test_decode_lcgNext : decode ⟨0x18000000, 77⟩ = .ok .lcgNext := by decide
theorem test_decode_mtSeed : decode ⟨0x20000000, 5489⟩ = .ok (.mtSeed 5489) := by decide
theorem test_decode_mtLdw : decode ⟨0x21000005, 0x12345678⟩ = .ok (.mtLdw 5 0x12345678) := by decide
theorem test_decode_mtLdu : decode ⟨0x2200026F, 1⟩ = .ok (.mtLdu 623 1) := by decide
theorem test_decode_mtLdi : decode ⟨0x23000000, 0x270⟩ = .ok (.mtLdi 624) := by decide
theorem test_decode_mtRdw : decode ⟨0x2400026F, 0⟩ = .ok (.mtRdw 623) := by decide
theorem test_decode_mtRdi : decode ⟨0x25000000, 0⟩ = .ok .mtRdi := by decide
theorem test_decode_mtTwist : decode ⟨0x26000000, 0⟩ = .ok .mtTwist := by decide
theorem test_decode_mtNext : decode ⟨0x28000000, 0⟩ = .ok .mtNext := by decide
theorem test_decode_tmpTemper : decode ⟨0x30000000, 1⟩ = .ok (.tmpTemper 1) := by decide
theorem test_decode_tmpUntemper : decode ⟨0x31000000, 1⟩ = .ok (.tmpUntemper 1) := by decide
theorem test_decode_zero : decode ⟨0x00000000, 0⟩ = .error .unassignedOpcode := by decide
theorem test_decode_ones : decode ⟨0xFFFFFFFF, 0⟩ = .error .unassignedOpcode := by decide
theorem test_decode_27 : decode ⟨0x27000000, 0⟩ = .error .unassignedOpcode := by decide
theorem test_decode_next_index_1 : decode ⟨0x18000001, 0⟩ = .error .indexNotZero := by decide
theorem test_decode_next_reserved : decode ⟨0x28000400, 0⟩ = .error .reservedField := by decide
theorem test_decode_rdw_reserved : decode ⟨0x24800000, 0⟩ = .error .reservedField := by decide
theorem test_decode_ldw_624 : decode ⟨0x21000270, 0⟩ = .error .indexOutOfRange := by decide
theorem test_decode_rdw_1023 : decode ⟨0x240003FF, 0⟩ = .error .indexOutOfRange := by decide
theorem test_decode_ldi_index_in_word : decode ⟨0x23000270, 0⟩ = .error .indexNotZero := by decide

theorem test_encode_ldi : encode (.mtLdi 624) = ⟨0x23000000, 0x270⟩ := by decide
theorem test_encode_rdw : encode (.mtRdw 623) = ⟨0x2400026F, 0⟩ := by decide
theorem test_table_word_with_operand : decodeTableWord 96 0x00000000123456782100_0005 = some (.mtLdw 5 0x12345678) := by
  decide
theorem test_table_word_short : decodeTableWord 32 0x00000000123456782100_0005 = some (.mtLdw 5 0) := by decide

/-! ### Assembler lines of R48 -/

theorem test_asm_ldw : (AsmLine.ofText "MT.LDW 5, 0x12345678".toList).bind AsmLine.assemble =
    some ⟨0x21000005, 0x12345678⟩ := by decide +kernel
theorem test_asm_encoding_text : commandText ⟨0x10000000, 0x7FFFFFFF⟩ = "cw=0x10000000 op=0x000000007FFFFFFF" := by
  decide +kernel
theorem test_asm_response_text : (⟨0, 1250496048⟩ : Response).text = "(OK, 1250496048)" := by decide +kernel
theorem test_asm_line_text : (toLine (.mtLdw 5 7)).text = "MT.LDW 5, 7" := by decide +kernel

/-! ### SYS (L2-9) -/

theorem test_rdstat_reset : rspOf (exec .sysRdstat State.reset) = some ⟨0, 0⟩ := by decide
theorem test_rdstat_mt_only : rspOf (exec .sysRdstat (mtWith zeroWords 624)) = some ⟨0, 2⟩ := by decide

/-! ### LCG (L1-2, L2-1) -/

theorem test_ldm_clears_ready : (stateOf (exec (.lcgLdm 50) (lcgWith 100 3 7 73))).lcgRdy = false := by decide
theorem test_lda_keeps_x : (stateOf (exec (.lcgLda 3) (lcgWith 100 0 0 0))).lcgX = 0 := by decide
theorem test_ldc_stores : (stateOf (exec (.lcgLdc 7) (lcgWith 100 3 0 0))).lcgC = 7 := by decide
theorem test_init_seed_equal_m : rspOf (exec (.lcgInit 100) (lcgWith 100 0 0 0)) = some ⟨4, 0⟩ := by decide
theorem test_init_seed_below_m : (stateOf (exec (.lcgInit 99) { blank with lcgM := 100 })).lcgX = 99 := by decide
theorem test_rdm : rspOf (exec .lcgRdm (lcgWith 2147483647 1 2 3)) = some ⟨0, 2147483647⟩ := by decide
theorem test_rda_unreduced : rspOf (exec .lcgRda (lcgWith 10 13 17 5)) = some ⟨0, 13⟩ := by decide
theorem test_rdc : rspOf (exec .lcgRdc (lcgWith 10 13 17 5)) = some ⟨0, 17⟩ := by decide
theorem test_rdx : rspOf (exec .lcgRdx (lcgWith 100 3 7 73)) = some ⟨0, 73⟩ := by decide
theorem test_next_source_parameters :
    rspOf (exec .lcgNext (lcgWith 2147483647 1103515245 12345 42)) = some ⟨0, 1250496048⟩ := by decide
theorem test_next_exact_128 : rspOf (exec .lcgNext
    (lcgWith 0x1FFFFFFFFFFFFFFF 0x1000000000003039 77 0x1000000000000063)) = some ⟨0, 576460752304651942⟩ := by decide

/-! ### MT (L2-6, L2-7, L2-8) -/

theorem test_seed_5489_word_623 :
    memRead 623 (stateOf (exec (.mtSeed 5489) blank)) = some 0x04C46D8C := by decide +kernel
theorem test_seed_too_wide : rspOf (exec (.mtSeed 0x100000000) blank) = some ⟨4, 0⟩ := by decide
theorem test_ldw : memRead 5 (stateOf (exec (.mtLdw 5 0x12345678) blank)) = some 0x12345678 := by decide +kernel
theorem test_ldw_too_wide : rspOf (exec (.mtLdw 623 0x10000000000) blank) = some ⟨4, 0⟩ := by decide
theorem test_ldu : memRead 7 (stateOf (exec (.mtLdu 7 0xD091BB5C) blank)) = some 0x9B0AFA27 := by decide +kernel
theorem test_ldu_index_beats_operand : rspOf (execute ⟨0x22000270, 0x10000000000⟩ blank) = some ⟨6, 0⟩ := by decide
theorem test_ldi_625 : rspOf (exec (.mtLdi 625) blank) = some ⟨4, 0⟩ := by decide
theorem test_ldi_not_truncated : rspOf (exec (.mtLdi 0x100000000) blank) = some ⟨4, 0⟩ := by decide
theorem test_rdw : rspOf (exec (.mtRdw 623) { blank with mtW := seedWords 19650218 }) = some ⟨0, 0xAD2949E2⟩ := by
  decide +kernel
theorem test_rdi_reset : rspOf (exec .mtRdi State.reset) = some ⟨0, 624⟩ := by decide
theorem test_next_index_0 :
    rspOf (exec .mtNext (mtWith (seedWords 5489) 0)) = some ⟨0, 46662977⟩ := by decide +kernel
theorem test_next_not_ready : rspOf (exec .mtNext blank) = some ⟨7, 0⟩ := by decide
theorem test_twist_not_ready : rspOf (exec .mtTwist blank) = some ⟨7, 0⟩ := by decide

/-- First output after seed 5489, through the twist (also the second seed row of L2-7). -/
theorem test_first_output_5489 : temper (twist (seedWords 5489))[0] = 3499211612 := by
  rw [twist_getElem_fast]
  decide +kernel
/-- The in-place reads of the twist: `N[227]` comes from the new `N[0]`, `N[623]` from the new `N[396]` and `N[0]`. -/
theorem test_twist_sparse_227 : (twist (tabulate fun i => if i = 1 then 1 else 0))[227] = 0x9908B0DF := by
  rw [twist_getElem_fast]
  decide +kernel
theorem test_twist_sparse_623 : (twist (tabulate fun i => if i = 1 then 1 else 0))[623] = 0x958CE8B0 := by
  rw [twist_getElem_fast]
  decide +kernel
theorem test_twist_command_index :
    (stateOf (exec .mtTwist (mtWith zeroWords 5))).mtIdx = 0 := by decide

/-! ### Tempering (L2-3, L2-5) -/

theorem test_temper : rspOf (exec (.tmpTemper 0x12345678) blank) = some ⟨0, 0x2B7E4A2D⟩ := by decide
theorem test_temper_too_wide : rspOf (exec (.tmpTemper 0xFFFFFFFF12345678) blank) = some ⟨4, 0⟩ := by decide
theorem test_untemper : rspOf (exec (.tmpUntemper 0xDEADBEEF) blank) = some ⟨0, 0x8F3A6C09⟩ := by decide
theorem test_untemper_ones : untemper 0xFFFFFFFF = 0x12DD9BB3 := by decide
theorem test_inverse_by_bits : invLeftBits 0x3B7652F5 7 0x9D2C5680 = 0x32564075 := by decide +kernel

/-! ### Byte streams and sequences (L2-2, R49) -/

theorem test_pack : pack [0x4A890E30, 0x4E1AED8A, 0x60B60E1D] 3 7 = [0x30, 0x0E, 0x89, 0x8A, 0xED, 0x1A, 0x1D] := by
  decide
theorem test_genb : (match runPseudo (.lcgGenb 10 4) (lcgWith 2147483647 1103515245 12345 42) with
    | .next q => some q.value
    | _ => none) = some (.bytes [0x30, 0x0E, 0x89, 0x4A, 0x8A, 0xED, 0x1A, 0x4E, 0x1D, 0x0E]) := by decide
theorem test_sequence_stops : (match issueAll [.lcgRdx, .mtNext, .lcgRdm] (lcgWith 10 3 7 5) with
    | .next q => some (q.status, q.values)
    | _ => none) = some (7, [5]) := by decide

/-! ### The step -/

theorem test_step_from_reset : rspOf (step (State.reset.withFetchWord 32 0x25000000)) = some ⟨0, 624⟩ := by decide
theorem test_step_illegal : rspOf (step (State.reset.withFetchWord 32 0x240003FF)) = some ⟨6, 0⟩ := by decide

/-! ### Witnesses: states and operands that meet the hypotheses of each claim, at the ends of their ranges -/

/-- A step of the channel: a state whose host is about to do `events`. -/
def withHost (events : List HostEvent) (s : State) : State := { s with host := events }

def readIndex : Command := ⟨0x25000000, 0⟩

theorem witness_ResetGivesTheResetValues :
    ∃ (s : State) (rest : List HostEvent), s.lcgRdy = true ∧ s.host = .reset :: rest ∧ (623 : Index).toNat < 624 :=
  ⟨withHost [.reset] (lcgWith 100 3 7 73), [], rfl, rfl, by decide⟩

theorem witness_ResetAbandonsTheCommandInFlight :
    ∃ (s : State) (c : Command) (rest : List HostEvent) (t : State), s.rsp = none ∧
      s.host = .issue c :: .reset :: rest ∧ step s = .next t ∧ t.lcgM = 9 :=
  ⟨withHost [.issue ⟨0x10000000, 9⟩, .reset, .take] blank, ⟨0x10000000, 9⟩, [.take], _, rfl, rfl, rfl, rfl⟩

theorem witness_ResponsesJustAfterReset :
    ∃ s₀ s : State, s = applyReset s₀ ∧ s₀.lcgRdy = true ∧ (0 : Index).toNat < 624 ∧ (623 : Index).toNat < 624 :=
  ⟨lcgWith 100 3 7 73, _, rfl, rfl, by decide, by decide⟩

theorem witness_StepRunsTheDecodedCommand :
    ∃ (s : State) (c : Command) (i : Instr) (rest : List HostEvent), s.rsp = none ∧ s.host = .issue c :: rest ∧
      decode c = .ok i :=
  ⟨withHost [.issue readIndex, .take] blank, readIndex, .mtRdi, [.take], rfl, rfl, by decide⟩

theorem witness_ChannelDiscipline :
    (∃ (s : State) (rest : List HostEvent), s.host = .reset :: rest) ∧
    (∃ (s : State) (r : Response) (rest : List HostEvent), s.rsp = some r ∧ s.host = .take :: rest) ∧
    (∃ s : State, s.host = []) ∧
    (∃ (s : State) (c : Command) (r : Response) (rest : List HostEvent), s.rsp = some r ∧
      s.host = .issue c :: rest) ∧
    ∃ (s : State) (rest : List HostEvent), s.rsp = none ∧ s.host = .take :: rest :=
  ⟨⟨withHost [.reset] blank, [], rfl⟩,
    ⟨{ withHost [.take] blank with rsp := some ⟨0, 7⟩ }, ⟨0, 7⟩, [], rfl, rfl⟩,
    ⟨blank, rfl⟩,
    ⟨{ withHost [.issue readIndex] blank with rsp := some ⟨4, 0⟩ }, readIndex, ⟨4, 0⟩, [], rfl, rfl⟩,
    ⟨withHost [.take] blank, [], rfl, rfl⟩⟩

theorem witness_DecodeOfEncodeIsTheCommand :
    (Instr.mtLdw 0 0xFFFFFFFFFFFFFFFF).wf = true ∧ (Instr.mtRdw 623).wf = true ∧ Instr.sysRdstat.wf = true := by
  decide

theorem witness_EncodeOfDecodeIsTheWord :
    decode ⟨0x18000000, 77⟩ = .ok .lcgNext ∧ operandClass .lcgNext = .none ∧
    decode ⟨0x2100026F, 77⟩ = .ok (.mtLdw 623 77) ∧ operandClass (.mtLdw 623 77) ≠ .none := by
  decide

theorem witness_CommandWordIsOpcodeAndIndex :
    (Instr.mtLdi 624).format = .N ∧ (Instr.mtLdw 623 0).format = .X := by
  decide

theorem witness_IllegalWordsAreRefusedExactly :
    illegalWord 0x00000000 ∧ illegalWord 0x18000001 ∧ illegalWord 0x28000400 ∧ illegalWord 0x21000270 ∧
    ¬illegalWord 0x2100026F ∧ decode ⟨0x2100026F, 1⟩ = .ok (.mtLdw 623 1) := by
  refine ⟨?_, ?_, ?_, ?_, ?_, ?_⟩ <;> (try simp only [illegalWord]) <;> decide

theorem witness_EveryStepKeepsTheInvariant :
    ∃ s t : State, s.Inv ∧ step s = .next t ∧ t.rsp = some ⟨0, 26⟩ :=
  ⟨withHost [.issue ⟨0x18000000, 0⟩] (lcgWith 100 3 7 73), _, by decide, rfl, by decide⟩

/-- The two commands that can fault, at the ends of what the invariant admits. -/
theorem witness_NoStepFaultsUnderTheInvariant :
    (withHost [.issue ⟨0x18000000, 0⟩] (lcgWith 1 3 7 0)).Inv ∧
    (withHost [.issue ⟨0x28000000, 0⟩] (mtWith zeroWords 624)).Inv ∧
    (withHost [.issue ⟨0x28000000, 0⟩] (mtWith zeroWords 623)).Inv := by
  decide

theorem witness_ReachableStatesMeetTheUnitInvariants : ∃ s : State, s.Reachable ∧ s.lcgRdy = true := by
  let events : List HostEvent := [.issue ⟨0x10000000, 9⟩, .take, .issue ⟨0x13000000, 8⟩]
  exact ⟨_, ⟨events, 3, rfl⟩, rfl⟩

theorem witness_EveryCommandIsAnswered : ∃ s : State, s.Inv ∧ s.lcgRdy = true ∧ s.mtIdx = 624 :=
  ⟨lcgWith 100 3 7 99, by decide, rfl, rfl⟩

/-- One failure of each kind. -/
theorem witness_FailedCommandsChangeNothing :
    (∃ t r, execute ⟨0x13000000, 100⟩ (lcgWith 100 3 7 73) = .next t ∧ t.rsp = some r ∧ r.st = 4) ∧
    (∃ t r, execute ⟨0x27000000, 0⟩ (lcgWith 100 3 7 73) = .next t ∧ t.rsp = some r ∧ r.st = 6) ∧
    ∃ t r, execute ⟨0x28000000, 0⟩ (lcgWith 100 3 7 73) = .next t ∧ t.rsp = some r ∧ r.st = 7 :=
  ⟨⟨_, _, rfl, rfl, by decide⟩, ⟨_, _, rfl, rfl, by decide⟩, ⟨_, _, rfl, rfl, by decide⟩⟩

theorem witness_FailureCausesAreExact :
    (∃ t r, execute ⟨0x21000270, 0x10000000000⟩ blank = .next t ∧ t.rsp = some r ∧ r.st = 6) ∧
    (∃ t r, execute ⟨0x18000000, 0⟩ blank = .next t ∧ t.rsp = some r ∧ r.st = 7) ∧
    (∃ t r, execute ⟨0x13000000, 0⟩ blank = .next t ∧ t.rsp = some r ∧ r.st = 4) ∧
    (∃ t r, execute ⟨0x30000000, 0x100000000⟩ blank = .next t ∧ t.rsp = some r ∧ r.st = 4) ∧
    (∃ t r, execute ⟨0x23000000, 625⟩ blank = .next t ∧ t.rsp = some r ∧ r.st = 4) ∧
    ∃ t r, execute ⟨0x23000000, 624⟩ blank = .next t ∧ t.rsp = some r ∧ r.st = 0 :=
  ⟨⟨_, _, rfl, rfl, by decide⟩, ⟨_, _, rfl, rfl, by decide⟩, ⟨_, _, rfl, rfl, by decide⟩,
    ⟨_, _, rfl, rfl, by decide⟩, ⟨_, _, rfl, rfl, by decide⟩, ⟨_, _, rfl, rfl, by decide⟩⟩

theorem witness_FailuresAreNotSticky :
    ∃ (c d : Command) (s t : State) (r : Response) (u : State) (q : Response), s.rsp = none ∧
      transact c s = .next (t, r) ∧ r.st ≠ 0 ∧ transact d s = .next (u, q) :=
  ⟨⟨0x28000000, 0⟩, ⟨0x18000000, 0⟩, lcgWith 100 3 7 73, _, ⟨7, 0⟩, _, ⟨0, 26⟩, rfl, rfl, by decide, rfl⟩

theorem witness_OnlyTheNamedCommandsWriteEachRegister :
    (∃ t, exec (.lcgLdm 50) (lcgWith 100 3 7 73) = .next t ∧ t.lcgM ≠ 100 ∧ t.lcgRdy = false) ∧
    (∃ t, exec (.lcgLda 50) (lcgWith 100 3 7 73) = .next t ∧ t.lcgA ≠ 3) ∧
    (∃ t, exec (.lcgLdc 50) (lcgWith 100 3 7 73) = .next t ∧ t.lcgC ≠ 7) ∧
    (∃ t, exec .lcgNext (lcgWith 100 3 7 73) = .next t ∧ t.lcgX ≠ 73) ∧
    (∃ t, exec (.lcgInit 0) { blank with lcgM := 1 } = .next t ∧ t.lcgRdy = true) ∧
    ∃ t, exec (.mtLdi 0) blank = .next t ∧ t.mtIdx ≠ 624 ∧ t.mtRdy = true :=
  ⟨⟨_, rfl, by decide, rfl⟩, ⟨_, rfl, by decide⟩, ⟨_, rfl, by decide⟩, ⟨_, rfl, by decide⟩, ⟨_, rfl, rfl⟩,
    ⟨_, rfl, by decide, rfl⟩⟩

theorem witness_CommandsThatStoreNoWordKeepTheWords :
    (∃ (i : Instr) (s t : State), exec i s = .next t ∧
      (∀ op idx, i ≠ .mtSeed op ∧ i ≠ .mtLdw idx op ∧ i ≠ .mtLdu idx op) ∧
      i ≠ .mtTwist ∧ i = .mtNext ∧ s.mtIdx ≠ 624) ∧
    ∃ (i : Instr) (s t : State), exec i s = .next t ∧
      (∀ op idx, i ≠ .mtSeed op ∧ i ≠ .mtLdw idx op ∧ i ≠ .mtLdu idx op) ∧
      i ≠ .mtTwist ∧ i ≠ .mtNext :=
  ⟨⟨.mtNext, mtWith zeroWords 623, _, rfl, by simp, by decide, rfl, by decide⟩,
    ⟨.mtLdi 3, blank, _, rfl, by simp, by decide, by decide⟩⟩

theorem witness_TheTwoEnginesShareNothing :
    (∃ t, Instr.lcgNext.blockUnit = .lcg ∧ exec .lcgNext (lcgWith 100 3 7 73) = .next t) ∧
    (∃ t, Instr.mtNext.blockUnit = .mt ∧ exec .mtNext (mtWith zeroWords 623) = .next t) ∧
    ∃ t, (Instr.tmpTemper 1).blockUnit = .tmp ∧ exec (.tmpTemper 1) blank = .next t :=
  ⟨⟨_, rfl, rfl⟩, ⟨_, rfl, rfl⟩, ⟨_, rfl, rfl⟩⟩

theorem witness_ReadsChangeNothingAndRepeat :
    ∃ (idx : Index) (i : Instr) (s t : State),
      i ∈ [Instr.mtRdw idx, .lcgRdm, .lcgRda, .lcgRdc, .lcgRdx, .mtRdi, .sysRdstat] ∧ exec i s = .next t ∧
        i = .mtRdw 623 :=
  ⟨623, .mtRdw 623, mtWith zeroWords 0, _, by decide, rfl, rfl⟩

theorem witness_ReadyFlagsFollowConstruction :
    (∃ t r, exec (.lcgInit 0) { blank with lcgM := 1 } = .next t ∧ t.rsp = some r ∧ r.st = 0) ∧
    (∃ t r, exec (.mtLdi 624) blank = .next t ∧ t.rsp = some r ∧ r.st = 0) ∧
    (∃ t r, exec (.mtLdi 625) blank = .next t ∧ t.rsp = some r ∧ r.st ≠ 0) ∧
    (∃ t r, exec .lcgNext blank = .next t ∧ t.rsp = some r ∧ blank.lcgRdy = false) ∧
    (∃ t r, exec .mtTwist blank = .next t ∧ t.rsp = some r ∧ blank.mtRdy = false) ∧
    ∃ t r, exec .sysRdstat (mtWith zeroWords 0) = .next t ∧ t.rsp = some r :=
  ⟨⟨_, _, rfl, rfl, by decide⟩, ⟨_, _, rfl, rfl, by decide⟩, ⟨_, _, rfl, rfl, by decide⟩, ⟨_, _, rfl, rfl, rfl⟩,
    ⟨_, _, rfl, rfl, rfl⟩, ⟨_, _, rfl, rfl⟩⟩

theorem witness_LcgInitConstructsOrFails :
    (∃ (op : Word64) (s : State), s.lcgM ≠ 0 ∧ op.toNat < s.lcgM.toNat ∧ op = 99) ∧
    (∃ (op : Word64) (s : State), s.lcgM ≠ 0 ∧ s.lcgM.toNat ≤ op.toNat ∧ op = 100) ∧
    ∃ s : State, s.lcgM = 0 :=
  ⟨⟨99, lcgWith 100 3 7 73, by decide, by decide, rfl⟩, ⟨100, lcgWith 100 3 7 73, by decide, by decide, rfl⟩,
    ⟨blank, rfl⟩⟩

theorem witness_LcgNextAdvancesByTheExactRecurrence :
    (∃ s : State, s.lcgRdy = true ∧ s.lcgM ≠ 0) ∧ ∃ s : State, s.lcgRdy = false :=
  ⟨⟨lcgWith 1 3 7 0, rfl, by decide⟩, ⟨blank, rfl⟩⟩

theorem witness_LcgStepUsesTheFullIntermediate :
    (∃ m : Word64, m ≠ 0 ∧ m.toNat ∣ 2 ^ 64) ∧
    ∃ m a c x : Word64, m = 2 ^ 61 - 1 ∧ a = 0x1000000000003039 ∧ x = 0x1000000000000063 ∧ c = 77 :=
  ⟨⟨0x8000000000000000, by decide, by decide⟩, ⟨_, _, _, _, rfl, rfl, rfl, rfl⟩⟩

/-- The parameters 13, 17, 5 modulo 10 of L2-1 and their residues 3, 7, 5. -/
theorem witness_LcgOutputsDependOnResiduesOnly :
    ∃ (n : Nat) (s s' : State) (p : PseudoResult), s.lcgRdy = true ∧
      s'.lcgRdy = true ∧ s.lcgM ≠ 0 ∧ s'.lcgM = s.lcgM ∧ s'.lcgX = s.lcgX ∧
      s'.lcgA % s.lcgM = s.lcgA % s.lcgM ∧ s'.lcgC % s.lcgM = s.lcgC % s.lcgM ∧ s.rsp = none ∧ s'.rsp = none ∧
      runPseudo (.lcgGen n) s = .next p ∧ n = 2 ∧ s'.lcgA ≠ s.lcgA :=
  ⟨2, lcgWith 10 13 17 5, lcgWith 10 3 7 5, _, rfl, rfl, by decide, rfl, rfl, by decide, by decide, rfl, rfl, rfl, rfl,
    by decide⟩

/-- The orbit of the source's parameters as the function `x` of the generation claims. -/
def orbit : Nat → Word64
  | 0 => 42
  | k + 1 => lcgStep 2147483647 1103515245 12345 (orbit k)

theorem witness_LcgGenGivesTheRecurrence :
    ∃ (s : State) (x : Nat → Word64), s.rsp = none ∧ s.lcgRdy = true ∧ s.lcgM ≠ 0 ∧ x 0 = s.lcgX ∧
      ∀ k, (x (k + 1)).toNat = (s.lcgA.toNat * (x k).toNat + s.lcgC.toNat) % s.lcgM.toNat :=
  ⟨lcgWith 2147483647 1103515245 12345 42, orbit, rfl, rfl, by decide, rfl, fun _ => lcgStep_toNat (by decide)⟩

/-- `w` at both ends of its range. -/
theorem witness_LcgGenbPacksTheOutputs :
    ∀ w ∈ [1, 8], ∃ (n : Nat) (s : State) (x : Nat → Word64), 1 ≤ w ∧ w ≤ 8 ∧ s.rsp = none ∧ s.lcgRdy = true ∧
      s.lcgM ≠ 0 ∧ x 0 = s.lcgX ∧
      (∀ k, (x (k + 1)).toNat = (s.lcgA.toNat * (x k).toNat + s.lcgC.toNat) % s.lcgM.toNat) ∧ n = 10 := by
  intro w hw
  refine ⟨10, lcgWith 2147483647 1103515245 12345 42, orbit, ?_, ?_, rfl, rfl, by decide, rfl,
    fun _ => lcgStep_toNat (by decide), rfl⟩
  all_goals
    simp only [List.mem_cons, List.not_mem_nil, or_false] at hw
    omega

theorem witness_LcgConsConstructsOrFails :
    blank.rsp = none ∧ ((1 : Word64) ≠ 0 ∧ (0 : Word64).toNat < (1 : Word64).toNat) ∧
    ¬((0 : Word64) ≠ 0 ∧ (0 : Word64).toNat < (0 : Word64).toNat) ∧
    ¬((1 : Word64) ≠ 0 ∧ (1 : Word64).toNat < (1 : Word64).toNat) :=
  ⟨rfl, by decide, by decide, by decide⟩

theorem witness_LcgParameterLoadKeepsTheStateForReinit :
    ∃ (op : Word64) (i : Instr) (s t : State), i ∈ [Instr.lcgLdm op, .lcgLda op, .lcgLdc op] ∧ exec i s = .next t ∧
      s.lcgX.toNat < t.lcgM.toNat ∧ op = 74 :=
  ⟨74, .lcgLdm 74, lcgWith 100 3 7 73, _, by decide, rfl, by decide, rfl⟩

theorem witness_MtSeedFillsTheWords :
    2 ^ 32 ≤ (0x100000000 : Word64).toNat ∧
    ∃ (op : Word64) (t : State) (p : Word32), op.toNat < 2 ^ 32 ∧ exec (.mtSeed op) blank = .next t ∧ 622 + 1 < 624 ∧
      memRead (BitVec.ofNat 10 622) t = some p :=
  ⟨by decide, 5489, { blank with mtW := seedWords 5489, mtIdx := 624, mtRdy := true, rsp := some ⟨0, 0⟩ }, _,
    by decide, rfl,
    by decide, memRead_of_lt _ (by decide)⟩

theorem witness_MtLdwWritesOneWord :
    ((623 : Index).toNat < 624 ∧ (0xFFFFFFFF : Word64).toNat < 2 ^ 32 ∧ (0 : Index) ≠ 623) ∧
    2 ^ 32 ≤ (0x100000000 : Word64).toNat ∧ 624 ≤ (624 : Index).toNat := by
  decide

theorem witness_MtLduWritesTheUntemperedWord :
    ((623 : Index).toNat < 624 ∧ (0xFFFFFFFF : Word64).toNat < 2 ^ 32 ∧ (622 : Index) ≠ 623) ∧
    2 ^ 32 ≤ (0x100000000 : Word64).toNat ∧ 624 ≤ (624 : Index).toNat := by
  decide

theorem witness_MtLdiSetsTheIndexOrFails : (624 : Word64).toNat ≤ 624 ∧ 624 < (625 : Word64).toNat := by
  decide

theorem witness_MtReadsReturnTheWordAndTheIndex :
    (623 : Index).toNat < 624 ∧ memRead 623 (mtWith zeroWords 0) = some 0 ∧ 624 ≤ (624 : Index).toNat :=
  ⟨by decide, by decide +kernel, by decide⟩

theorem witness_MtTwistCommandTwists :
    (∃ s : State, s.mtRdy = true ∧ s.mtIdx = 624) ∧ (∃ s : State, s.mtRdy = true ∧ s.mtIdx ≠ 624) ∧
    ∃ s : State, s.mtRdy = false :=
  ⟨⟨mtWith zeroWords 624, rfl, rfl⟩, ⟨mtWith zeroWords 5, rfl, by decide⟩, ⟨blank, rfl⟩⟩

theorem witness_MtNextGivesTheTemperedWord :
    (∃ s : State, s.mtRdy = true ∧ s.mtIdx.toNat < 624 ∧ s.mtIdx = 623) ∧
    (∃ s : State, s.mtRdy = true ∧ s.mtIdx.toNat = 624) ∧ ∃ s : State, s.mtRdy = false :=
  ⟨⟨mtWith zeroWords 623, rfl, by decide, rfl⟩, ⟨mtWith zeroWords 624, rfl, by decide⟩, ⟨blank, rfl⟩⟩

theorem witness_TwistRunsTheLoopInPlace : 0 < 624 ∧ 623 < 624 ∧ (623 + 1) % 624 = 0 ∧ (623 + 397) % 624 = 396 := by
  decide

theorem witness_TwistWordsByOldAndNewWords :
    ∃ (o n : MtWords) (G : Word32 → Word32 → Word32), n = twist o ∧
      (∀ hi lo y : Word32, y = (hi &&& 0x80000000) ||| (lo &&& 0x7FFFFFFF) →
        G hi lo = (y >>> 1) ^^^ (if y.toNat % 2 = 1 then 0x9908B0DF else 0)) ∧
      226 ≤ 226 ∧ 227 ≤ 227 ∧ 622 ≤ 622 :=
  ⟨zeroWords, _, fun hi lo =>
    let y := (hi &&& 0x80000000) ||| (lo &&& 0x7FFFFFFF)
    (y >>> 1) ^^^ (if y.toNat % 2 = 1 then 0x9908B0DF else 0), rfl, fun _ _ _ h => by rw [h], by decide, by decide,
    by decide⟩

theorem witness_TwistIgnoresTheLowBitsOfWordZero :
    ∃ (w : MtWords) (v : Word32), v.getLsbD 31 = w[0].getLsbD 31 ∧ v ≠ w[0] :=
  ⟨zeroWords, 0x7FFFFFFF, by decide +kernel, by decide +kernel⟩

theorem witness_TemperingStepsBitByBit : 0 < 32 ∧ 31 < 32 := by decide

theorem witness_InversionsAreTheUniqueSolutions : (1 ≤ 1 ∧ 1 ≤ 31) ∧ 1 ≤ 31 ∧ 31 ≤ 31 := by decide

theorem witness_InverseStepsUndoTheTemperingSteps :
    ∃ y v₁ v₂ v₃ : Word32, v₁ = y ^^^ ((y <<< 7) &&& 0x9D2C5680) ∧ v₂ = y ^^^ ((v₁ <<< 7) &&& 0x9D2C5680) ∧
      v₃ = y ^^^ ((v₂ <<< 7) &&& 0x9D2C5680) :=
  ⟨0x3B7652F5, _, _, _, rfl, rfl, rfl⟩

theorem witness_TmpCommandsApplyTheirFunctions :
    (0xFFFFFFFF : Word64).toNat < 2 ^ 32 ∧ 2 ^ 32 ≤ (0x100000000 : Word64).toNat := by
  decide

theorem witness_PackTakesLowOrderBytesFirst :
    ∃ (vs : List Word64) (w n : Nat), 1 ≤ w ∧ w ≤ 8 ∧ n ≤ vs.length * w ∧ w = 8 ∧ n = 16 :=
  ⟨[1, 2], 8, 16, by decide, by decide, by decide, rfl, rfl⟩

theorem witness_SequencesStopAtTheFirstFailure :
    (∃ (l : List Instr) (i : Instr) (s : State) (q : SequenceResult) (t : State) (r : Response),
      issueAll l s = .next q ∧ q.status = 0 ∧ transact (encode i) q.state = .next (t, r) ∧ r.st ≠ 0) ∧
    (∃ (l : List Instr) (i : Instr) (s : State) (q : SequenceResult) (t : State) (r : Response),
      issueAll l s = .next q ∧ q.status = 0 ∧ transact (encode i) q.state = .next (t, r) ∧ r.st = 0) ∧
    ∃ (p : Pseudo) (s : State) (q : SequenceResult), issueAll p.expand s = .next q ∧ q.status = 4 :=
  ⟨⟨[.lcgRdx], .mtNext, lcgWith 10 3 7 5, _, _, ⟨7, 0⟩, rfl, rfl, rfl, by decide⟩,
    ⟨[.lcgRdx], .lcgNext, lcgWith 10 3 7 5, _, _, ⟨0, 2⟩, rfl, rfl, rfl, by decide⟩,
    ⟨.lcgCons 10 3 7 10, blank, _, rfl, rfl⟩⟩

theorem witness_GenerationNeedsAConstructedUnit :
    ∀ n ∈ [0, 3], ∃ (w : Nat) (s : State) (v : PseudoValue → PseudoValue) (st : BitVec 4), s.rsp = none ∧
      1 ≤ w ∧ w ≤ 8 ∧
      (∀ e, v e = if n = 0 then e else .nothing) ∧ st = (if n = 0 then 0 else 7) ∧ s.lcgRdy = false ∧
      s.mtRdy = false :=
  fun _ _ => ⟨8, blank, _, _, rfl, by decide, by decide, fun _ => rfl, rfl, rfl, rfl⟩

/-! #### The all-zero state, which "outputs 0 for ever" (spec/41_mt_engine.md R89) -/

theorem twist_zeroWords : twist zeroWords = zeroWords := by
  apply Vector.ext
  intro j hj
  have hz : ∀ j (h : j < 624), zeroWords[j] = 0 := tabulate_getElem _
  rw [twist_getElem zeroWords (fun _ => 0) (fun j h => (hz j h).symm) (fun _ _ => by decide) j hj, hz j hj]

theorem zero_next (s : State) (hn : s.rsp = none) (hr : s.mtRdy = true) (hi : s.mtIdx.toNat ≤ 624)
    (hw : s.mtW = zeroWords) :
    ∃ t, transact (encode .mtNext) s = .next (t, ⟨0, 0⟩) ∧ t.rsp = none ∧ t.mtRdy = true ∧ t.mtIdx.toNat ≤ 624 ∧
      t.mtW = zeroWords := by
  have hd : execute (encode .mtNext) s = exec .mtNext s := execute_of_ok (by decide) s
  have hz : ∀ j (h : j < 624), zeroWords[j] = 0#32 := tabulate_getElem _
  have ht : temper 0#32 = 0#32 := by decide
  by_cases h : s.mtIdx = 624
  · have h' : s.mtIdx = 624#10 := h
    have he : exec .mtNext s = .next { s with mtW := twist s.mtW, mtIdx := 1, rsp := some ⟨0, 0⟩ } := by
      simp [exec, execMtNext, whenMtReady_eq, hr, refillIfSpent, h', refill, memRead, hw, twist_zeroWords, hz, ht,
        respond]
    exact ⟨_, transact_of_next hn (hd.trans he) rfl, rfl, hr, by simp, by simp [hw, twist_zeroWords]⟩
  · have hlt : s.mtIdx.toNat < 624 := by
      have : s.mtIdx.toNat ≠ 624 := fun e => h (BitVec.eq_of_toNat_eq e)
      omega
    have h' : ¬s.mtIdx = 624#10 := h
    have he : exec .mtNext s = .next { s with mtIdx := s.mtIdx + 1, rsp := some ⟨0, 0⟩ } := by
      simp [exec, execMtNext, whenMtReady_eq, hr, refillIfSpent, h', memRead, hw, hz, hlt, ht, respond]
    refine ⟨_, transact_of_next hn (hd.trans he) rfl, rfl, hr, ?_, hw⟩
    simp only [BitVec.toNat_add]
    simp
    omega

theorem zero_gen (n : Nat) (s : State) (hn : s.rsp = none) (hr : s.mtRdy = true) (hi : s.mtIdx.toNat ≤ 624)
    (hw : s.mtW = zeroWords) :
    ∃ t, issueAll (List.replicate n .mtNext) s = .next ⟨t, 0, List.replicate n 0⟩ := by
  induction n generalizing s with
  | zero => exact ⟨s, rfl⟩
  | succ n ih =>
    obtain ⟨t, h, a, b, c, d⟩ := zero_next s hn hr hi hw
    obtain ⟨u, hu⟩ := ih t a b c d
    exact ⟨u, issueAll_cons_ok h rfl hu⟩

theorem zero_mtGen (n : Nat) (idx : Index) (hi : idx.toNat ≤ 624) :
    ∃ t, runPseudo (.mtGen n) (mtWith zeroWords idx) = .next ⟨t, 0, .outputs (List.replicate n 0)⟩ := by
  obtain ⟨t, h⟩ := zero_gen n (mtWith zeroWords idx) rfl rfl hi rfl
  exact ⟨t, by simp [runPseudo, Pseudo.expand, h, Pseudo.value]⟩

theorem witness_MtGenRepeatsMtNext :
    ∃ (n : Nat) (s t u : State) (r : Response) (vs : List Word64), s.rsp = none ∧
      transact (encode .mtNext) s = .next (t, r) ∧ r.st = 0 ∧
      runPseudo (.mtGen n) t = .next ⟨u, 0, .outputs vs⟩ ∧ s.mtRdy = true ∧ s.mtIdx.toNat ≤ 624 ∧ n = 700 := by
  obtain ⟨t, h, a, b, c, d⟩ := zero_next (mtWith zeroWords 624) rfl rfl (by decide) rfl
  obtain ⟨u, hu⟩ := zero_gen 700 t a b c d
  exact ⟨700, _, t, u, _, _, rfl, h, rfl, by simp only [runPseudo, Pseudo.expand, hu]; rfl, rfl, by decide, rfl⟩

/-- `x` is the stream of the state seeded with 5489. -/
theorem witness_MtOutputsAreTheTemperedStream :
    ∃ (s : State) (x : Nat → Word32), s.rsp = none ∧ s.mtRdy = true ∧ s.mtIdx = 624 ∧
      (∀ j (h : j < 624), s.mtW[j] = x j) ∧
      ∀ j, x (j + 624) = x (j + 397) ^^^ twistG (x j) (x (j + 1)) :=
  ⟨mtWith (seedWords 5489) 624, rawStream (seedWords 5489), rfl, rfl, rfl,
    fun j h => (rawStream_of_lt _ j h).symm, fun j => by rw [Nat.add_comm j 624, rawStream_add]⟩

theorem window_replicate (p m n : Nat) (a : Word64) :
    ((List.replicate (p + m + n) a).drop p).take m = List.replicate m a := by
  rw [List.drop_replicate, List.take_replicate]
  congr 1
  omega

/-- A window that starts inside an epoch (`p = 5`). -/
theorem witness_MtCloneContinuesTheOriginal :
    ∃ (E K E' : State) (x : Nat → Word32) (p n : Nat) (vs : List Word64) (ys : Vector Word64 624),
      E.rsp = none ∧ E.mtRdy = true ∧ E.mtIdx = 624 ∧ K.rsp = none ∧ (∀ j (h : j < 624), E.mtW[j] = x j) ∧
      (∀ j, x (j + 624) = x (j + 397) ^^^ twistG (x j) (x (j + 1))) ∧
      runPseudo (.mtGen (p + 624 + n)) E = .next ⟨E', 0, .outputs vs⟩ ∧ ys.toList = (vs.drop p).take 624 ∧
      p = 5 ∧ n = 1000 := by
  obtain ⟨E', h⟩ := zero_mtGen (5 + 624 + 1000) 624 (by decide)
  refine ⟨mtWith zeroWords 624, blank, E', fun _ => 0, 5, 1000, _, Vector.replicate 624 0, rfl, rfl, rfl, rfl,
    tabulate_getElem _, fun _ => (by decide : (0 : Word32) = 0 ^^^ twistG 0 0), h, ?_, rfl, rfl⟩
  rw [window_replicate]
  exact Vector.toList_replicate

theorem witness_MtCloneLoadsTheUntemperedSamples :
    ∃ (ys : Vector Word64 624) (s : State), s.rsp = none ∧ ∀ i (h : i < 624), ys[i].toNat < 2 ^ 32 :=
  ⟨Vector.replicate 624 0xFFFFFFFF, blank, rfl, fun i h => by simp⟩

theorem witness_MtStateLoadsAndReadsBack :
    ∃ (ws : Vector Word64 624) (idx : Word64) (s : State), s.rsp = none ∧
      (∀ i (h : i < 624), ws[i].toNat < 2 ^ 32) ∧ idx.toNat ≤ 624 ∧ idx = 624 :=
  ⟨Vector.replicate 624 0xFFFFFFFF, 624, blank, rfl, fun i h => by simp, by decide, rfl⟩

/-- Two outputs for five bytes, with a twist between them. -/
theorem witness_MtGenbPacksTheOutputs :
    ∃ (n : Nat) (s t : State) (vs : List Word64), s.rsp = none ∧ s.mtRdy = true ∧
      runPseudo (.mtGen ((n + 3) / 4)) s = .next ⟨t, 0, .outputs vs⟩ ∧ n = 5 := by
  obtain ⟨t, h⟩ := zero_mtGen ((5 + 3) / 4) 623 (by decide)
  exact ⟨5, mtWith zeroWords 623, t, _, rfl, rfl, h, rfl⟩

end Sys2Proof.Tests
end

/-! SUPPORT. Everything an answered command can have done, said once (spec/30_encoding.md R43,
spec/60_exceptions.md R109), and from it the laws of the two ready flags (spec/10_state.md R12, R18). -/

namespace Sys2Proof.Machine

/-! ### What an answered command did -/

/-- The check of spec/30_encoding.md R43 (steps 3 to 5, in that order) at which the command fails, if one does. -/
def failureOf (i : Instr) (s : State) : Option Status :=
  match i with
  | .lcgInit op => if s.lcgM ≠ 0 ∧ op.toNat < s.lcgM.toNat then none else some .invalidParameters
  | .lcgNext => if s.lcgRdy = true then none else some .notReady
  | .mtTwist | .mtNext => if s.mtRdy = true then none else some .notReady
  | .mtSeed op | .tmpTemper op | .tmpUntemper op => if op.toNat < 2 ^ 32 then none else some .invalidParameters
  | .mtLdw idx op | .mtLdu idx op =>
    if idx.toNat < 624 then if op.toNat < 2 ^ 32 then none else some .invalidParameters
    else some .illegalCommand
  | .mtLdi op => if op.toNat ≤ 624 then none else some .invalidParameters
  | .mtRdw idx => if idx.toNat < 624 then none else some .illegalCommand
  | .sysRdstat | .lcgLdm _ | .lcgLda _ | .lcgLdc _ | .lcgRdm | .lcgRda | .lcgRdc | .lcgRdx | .mtRdi => none

/-- The state a successful command leaves, but for its response. -/
def effectOf (i : Instr) (s : State) : State :=
  match i with
  | .lcgLdm op => clearLcgReady { s with lcgM := op }
  | .lcgLda op => clearLcgReady { s with lcgA := op }
  | .lcgLdc op => clearLcgReady { s with lcgC := op }
  | .lcgInit op => setLcgReady { s with lcgX := op }
  | .lcgNext => { s with lcgX := lcgStep s.lcgM s.lcgA s.lcgC s.lcgX }
  | .mtSeed op => setMtReady { s with mtW := seedWords (op.setWidth 32), mtIdx := 624 }
  | .mtLdw idx op => memWrite idx (op.setWidth 32) s
  | .mtLdu idx op => memWrite idx (untemper (op.setWidth 32)) s
  | .mtLdi op => setMtReady { s with mtIdx := op.setWidth 10 }
  | .mtTwist => refill s
  | .mtNext => { refillIfSpent s with mtIdx := (refillIfSpent s).mtIdx + 1 }
  | .sysRdstat | .lcgRdm | .lcgRda | .lcgRdc | .lcgRdx | .mtRdw _ | .mtRdi | .tmpTemper _ | .tmpUntemper _ => s

/-- `t` is `s` with the answer of a failed check, or `u` with the answer of a command whose checks passed. -/
def Answered (failure : Option Status) (s u t : State) : Prop :=
  (∃ k, failure = some k ∧ t = { s with rsp := some ⟨k.code, 0⟩ }) ∨
    (failure = none ∧ ∃ rv, t = { u with rsp := some ⟨0, rv⟩ })

theorem Answered.of_respond {rv : Word64} {s u t : State} (h : respond .ok rv u = .next t) :
    Answered none s u t :=
  .inr ⟨rfl, rv, respond_next_iff.mp h⟩

/-- One check in front of a body. -/
theorem Answered.of_check {p : Prop} [Decidable p] {body : Result} {k : Status} {failure : Option Status}
    {s u t : State} (h : (if p then body else raise k s) = .next t)
    (hbody : body = .next t → Answered failure s u t) :
    Answered (if p then failure else some k) s u t := by
  by_cases hp : p
  · rw [if_pos hp] at h ⊢
    exact hbody h
  · rw [if_neg hp] at h ⊢
    exact .inl ⟨k, rfl, raise_next_iff.mp h⟩

theorem execLcgInit_eq (op : Word64) (s : State) :
    execLcgInit op s =
      if s.lcgM ≠ 0 ∧ op.toNat < s.lcgM.toNat then respond .ok 0 (setLcgReady { s with lcgX := op })
      else raise .invalidParameters s := by
  have hfails : (s.lcgM = 0 ∨ op.toNat ≥ s.lcgM.toNat) ↔ ¬(s.lcgM ≠ 0 ∧ op.toNat < s.lcgM.toNat) := by
    rw [not_and_or, not_not, Nat.not_lt]
  rw [execLcgInit, if_congr hfails rfl rfl, ite_not]

theorem execMtRdw_eq (idx : Index) (s : State) :
    execMtRdw idx s = if idx.toNat < 624 then respond .ok ((wordAt s.mtW idx.toNat).zeroExtend 64) s
      else raise .illegalCommand s := by
  unfold execMtRdw
  by_cases h : idx.toNat < 624
  · rw [memRead_of_lt s h, if_pos h, wordAt_of_lt s.mtW h]
  · rw [memRead_of_ge s (Nat.le_of_not_lt h), if_neg h]

/-- Everything a command that is answered can have done. -/
theorem exec_answered {i : Instr} {s t : State} (h : exec i s = .next t) :
    Answered (failureOf i s) s (effectOf i s) t := by
  cases i with
  | sysRdstat | lcgRdm | lcgRda | lcgRdc | lcgRdx | mtRdi => exact .of_respond h
  | lcgLdm op | lcgLda op | lcgLdc op => exact .of_respond h
  | lcgInit op => exact .of_check ((execLcgInit_eq op s).symm.trans h) .of_respond
  | lcgNext =>
    refine .of_check h fun h => ?_
    split at h
    · cases h
    · exact .of_respond h
  | mtSeed op | tmpTemper op | tmpUntemper op => exact .of_check ((withU32_eq op s _).symm.trans h) .of_respond
  | mtLdw idx op | mtLdu idx op =>
    refine .of_check ((whenIndexLegal_eq idx s _).symm.trans h) fun h => ?_
    exact .of_check ((withU32_eq op s _).symm.trans h) .of_respond
  | mtLdi op => exact .of_check ((withIdx625_eq op s _).symm.trans h) .of_respond
  | mtRdw idx => exact .of_check ((execMtRdw_eq idx s).symm.trans h) .of_respond
  | mtTwist => exact .of_check h .of_respond
  | mtNext =>
    refine .of_check h fun h => ?_
    split at h
    · exact .of_respond h
    · cases h

@[simp] theorem Status.code_eq_zero_iff {k : Status} : k.code = 0#4 ↔ k = .ok :=
  ⟨fun h => Status.code_injective h, fun h => h ▸ rfl⟩

/-- A failed check answers one of the three codes of R104 to R106, so never OK. -/
theorem ne_ok_of_failureOf {i : Instr} {s : State} {k : Status} (h : failureOf i s = some k) : k ≠ .ok := by
  rintro rfl
  cases i with
  | mtLdw idx op | mtLdu idx op =>
    simp only [failureOf] at h
    split_ifs at h <;> cases h
  | _ => simp [failureOf] at h

/-! ### The ready flags -/

@[simp] theorem refillIfSpent_lcgRdy (s : State) : (refillIfSpent s).lcgRdy = s.lcgRdy := by
  unfold refillIfSpent
  split <;> rfl

@[simp] theorem refillIfSpent_mtRdy (s : State) : (refillIfSpent s).mtRdy = s.mtRdy := by
  unfold refillIfSpent
  split <;> rfl

theorem effectOf_lcgRdy_iff (i : Instr) (s : State) :
    (effectOf i s).lcgRdy = true ↔ (∃ op, i = .lcgInit op) ∨
      (s.lcgRdy = true ∧ ∀ op, i ≠ .lcgLdm op ∧ i ≠ .lcgLda op ∧ i ≠ .lcgLdc op) := by
  cases i <;> simp [effectOf]

theorem effectOf_mtRdy_iff (i : Instr) (s : State) :
    (effectOf i s).mtRdy = true ↔ s.mtRdy = true ∨ ∃ op, i = .mtSeed op ∨ i = .mtLdi op := by
  cases i <;> simp [effectOf]

/-- A parameter load has no check to fail (R63 to R65). -/
theorem not_parameterLoad_of_failureOf {i : Instr} {s : State} {k : Status} (h : failureOf i s = some k)
    (op : Word64) : i ≠ .lcgLdm op ∧ i ≠ .lcgLda op ∧ i ≠ .lcgLdc op := by
  refine ⟨?_, ?_, ?_⟩ <;> rintro rfl <;> cases h

theorem statusView_getLsbD (s : State) :
    (statusView s).getLsbD 0 = s.lcgRdy ∧ (statusView s).getLsbD 1 = s.mtRdy := by
  simp only [statusView, BitVec.truncate_eq_setWidth, BitVec.getLsbD_setWidth, BitVec.getLsbD_append,
    BitVec.getLsbD_ofBool]
  simp

section Answer

variable {i : Instr} {s t : State} {r : Response}

theorem exec_lcgRdy_iff (h : exec i s = .next t) (hr : t.rsp = some r) :
    t.lcgRdy = true ↔ (r.st = 0 ∧ ∃ op, i = .lcgInit op) ∨
      (s.lcgRdy = true ∧ ∀ op, i ≠ .lcgLdm op ∧ i ≠ .lcgLda op ∧ i ≠ .lcgLdc op) := by
  rcases exec_answered h with ⟨k, hk, rfl⟩ | ⟨-, rv, rfl⟩ <;> obtain rfl := Option.some.inj hr
  · simp [ne_ok_of_failureOf hk, not_parameterLoad_of_failureOf hk]
  · simpa using effectOf_lcgRdy_iff i s

theorem exec_mtRdy_iff (h : exec i s = .next t) (hr : t.rsp = some r) :
    t.mtRdy = true ↔ s.mtRdy = true ∨ (r.st = 0 ∧ ∃ op, i = .mtSeed op ∨ i = .mtLdi op) := by
  rcases exec_answered h with ⟨k, hk, rfl⟩ | ⟨-, rv, rfl⟩ <;> obtain rfl := Option.some.inj hr
  · simp [ne_ok_of_failureOf hk]
  · simpa using effectOf_mtRdy_iff i s

/-- The response of a failed check carries its code and the value 0 (R109). -/
theorem response_of_failureOf {k : Status} (hk : failureOf i s = some k) (h : exec i s = .next t)
    (hr : t.rsp = some r) : r = ⟨k.code, 0⟩ := by
  rcases exec_answered h with ⟨k', hk', rfl⟩ | ⟨hnone, -⟩
  · obtain rfl : k = k' := Option.some.inj (hk.symm.trans hk')
    exact (Option.some.inj hr).symm
  · exact absurd (hk.symm.trans hnone) (Option.some_ne_none k)

theorem failureOf_lcgNext_of_not_ready (hs : s.lcgRdy = false) : failureOf .lcgNext s = some .notReady := by
  simp [failureOf, hs]

theorem failureOf_mtNext_or_mtTwist_of_not_ready (hi : i = .mtNext ∨ i = .mtTwist) (hs : s.mtRdy = false) :
    failureOf i s = some .notReady := by
  rcases hi with rfl | rfl <;> simp [failureOf, hs]

theorem sysRdstat_response (h : exec .sysRdstat s = .next t) (hr : t.rsp = some r) : r = ⟨0, statusView s⟩ := by
  obtain rfl := respond_next_iff.mp h
  exact (Option.some.inj hr).symm

end Answer

/-- Settles O24: the flags of an answered command are those of `effectOf` when its checks pass and those before it
when one fails, and no parameter load fails. -/
theorem readyFlagsFollowConstruction : Obligations.ReadyFlagsFollowConstruction := by
  unfold Obligations.ReadyFlagsFollowConstruction
  refine ⟨fun i s t r h hr => ⟨exec_lcgRdy_iff h hr, exec_mtRdy_iff h hr, ?_, ?_, ?_⟩, fun s u hu => ?_⟩
  · rintro rfl hs
    rw [response_of_failureOf (failureOf_lcgNext_of_not_ready hs) h hr, code_notReady]
  · intro hi hs
    rw [response_of_failureOf (failureOf_mtNext_or_mtTwist_of_not_ready hi hs) h hr, code_notReady]
  · rintro rfl
    rw [sysRdstat_response h hr]
    exact statusView_getLsbD s
  · rcases List.mem_pair.mp hu with rfl | rfl
    · exact ⟨applyReset_lcgRdy s, applyReset_mtRdy s⟩
    · exact ⟨reset_lcgRdy, reset_mtRdy⟩

end Sys2Proof.Machine

/-! ### The byte stream (spec/20_memory.md R32) -/

namespace Sys2Proof.Machine

@[simp] theorem length_flatMap_bytesOf (vs : List Word64) (w : Nat) :
    (vs.flatMap fun v => bytesOf v w).length = vs.length * w := by
  simp [List.length_flatMap]

/-- Every group is `w` bytes long, so byte `i` of the concatenation is byte `i % w` of group `i / w`: below `w` it
lies in the first group, and from `w` on it is byte `i - w` of the remaining groups. -/
theorem flatMap_bytesOf_getElem? (vs : List Word64) (w i : Nat) (h : i < vs.length * w) :
    (vs.flatMap fun v => bytesOf v w)[i]? = some ((vs.getD (i / w) 0).extractLsb' (8 * (i % w)) 8) := by
  induction vs generalizing i with
  | nil => simp at h
  | cons v vs ih =>
    rw [List.flatMap_cons]
    rcases Nat.lt_or_ge i w with hi | hi
    · rw [List.getElem?_append_left (by simpa using hi), bytesOf_getElem? v w i hi, Nat.div_eq_of_lt hi,
        Nat.mod_eq_of_lt hi, List.getD_cons_zero]
    · obtain ⟨j, rfl⟩ := Nat.exists_eq_add_of_le' hi
      have hj : j < vs.length * w := by
        rw [List.length_cons, Nat.succ_mul] at h
        exact Nat.lt_of_add_lt_add_right h
      have hw : 0 < w := Nat.pos_of_lt_mul_left hj
      rw [List.getElem?_append_right (by simp), bytesOf_length, Nat.add_sub_cancel, ih j hj,
        Nat.add_div_right j hw, Nat.add_mod_right, List.getD_cons_succ]

theorem pack_length {vs : List Word64} {w n : Nat} (h : n ≤ vs.length * w) : (pack vs w n).length = n := by
  simpa [pack] using h

theorem pack_getElem? {vs : List Word64} {w n i : Nat} (h : n ≤ vs.length * w) (hi : i < n) :
    (pack vs w n)[i]? = some ((vs.getD (i / w) 0).extractLsb' (8 * (i % w)) 8) := by
  rw [pack, List.getElem?_take_of_lt hi, flatMap_bytesOf_getElem? vs w i (hi.trans_le h)]

/-- Settles O51: the first `n` bytes of the concatenation are read group by group; neither bound on `w` is needed. -/
theorem packTakesLowOrderBytesFirst : Obligations.PackTakesLowOrderBytesFirst := by
  unfold Obligations.PackTakesLowOrderBytesFirst
  intro vs w n _ _ hn
  exact ⟨pack_length hn, fun i hi => pack_getElem? hn hi⟩

end Sys2Proof.Machine

/-! SUPPORT. The decoder by the bits of the command word (spec/30_encoding.md R37, R42 to R44). -/

namespace Sys2Proof

/-- The twenty values of `OPC` that R42 assigns. -/
def assignedOpcodes : List Nat :=
  [0x01, 0x10, 0x11, 0x12, 0x13, 0x14, 0x15, 0x16, 0x17, 0x18, 0x20, 0x21, 0x22, 0x23, 0x24, 0x25, 0x26, 0x28,
    0x30, 0x31]

/-- Those of format X (R39). -/
def indexedOpcodes : List Nat := [0x21, 0x22, 0x24]

theorem Command.opc_toNat (c : Command) : c.opc.toNat = c.cw.toNat / 2 ^ 24 := by
  have := c.cw.isLt
  rw [Command.opc, BitVec.extractLsb'_toNat, Nat.shiftRight_eq_div_pow]
  omega

theorem Command.rsv_toNat (c : Command) : c.rsv.toNat = c.cw.toNat / 2 ^ 10 % 2 ^ 14 := by
  rw [Command.rsv, BitVec.extractLsb'_toNat, Nat.shiftRight_eq_div_pow]

theorem Command.idx_toNat (c : Command) : c.idx.toNat = c.cw.toNat % 2 ^ 10 := by
  rw [Command.idx, BitVec.extractLsb'_toNat, Nat.shiftRight_zero]

theorem select_eq_none_iff (opc : BitVec 8) (idx : Index) (op : Word64) :
    select opc idx op = none ↔ opc.toNat ∉ assignedOpcodes := by
  unfold select assignedOpcodes
  split <;> simp_all

theorem select_format {opc : BitVec 8} {idx : Index} {op : Word64} {f : Format} {i : Instr}
    (h : select opc idx op = some (f, i)) : f = .X ↔ opc.toNat ∈ indexedOpcodes := by
  unfold select at h
  split at h <;> cases h <;> simp_all [indexedOpcodes]

namespace Machine

theorem illegalWord_iff (c : Command) :
    illegalWord c.cw ↔ c.opc.toNat ∉ assignedOpcodes ∨ c.rsv ≠ 0 ∨
      (c.opc.toNat ∉ indexedOpcodes ∧ c.idx ≠ 0) ∨ (c.opc.toNat ∈ indexedOpcodes ∧ 624 ≤ c.idx.toNat) := by
  simp only [ne_eq, ← BitVec.toNat_inj, c.opc_toNat, c.rsv_toNat, c.idx_toNat]
  rfl

/-- R43 steps 1 to 3: the decoder fails at the first check that an illegal word does not pass. -/
theorem illegalWord_iff_decode_error (c : Command) : illegalWord c.cw ↔ ∃ e, decode c = .error e := by
  rw [illegalWord_iff]
  unfold decode
  rcases hs : select c.opc c.idx c.op with _ | ⟨f, i⟩
  · have hopc : c.opc.toNat ∉ assignedOpcodes := (select_eq_none_iff ..).mp hs
    exact iff_of_true (.inl hopc) ⟨_, rfl⟩
  have hopc : c.opc.toNat ∈ assignedOpcodes := by
    by_contra hno
    simp [(select_eq_none_iff c.opc c.idx c.op).mpr hno] at hs
  by_cases hrsv : c.rsv = 0
  · have hformat := select_format hs
    cases f with
    | N =>
      have hx : c.opc.toNat ∉ indexedOpcodes := hformat.not.mp (by simp)
      by_cases hidx : c.idx = 0#10 <;> simp [hopc, hrsv, hx, hidx]
    | X =>
      have hx : c.opc.toNat ∈ indexedOpcodes := hformat.mp rfl
      by_cases hidx : c.idx.toNat < 624
      · simp [hopc, hrsv, hx, indexLegal, hidx]
      · simp [hopc, hrsv, hx, indexLegal, hidx, Nat.le_of_not_lt hidx]
  · exact iff_of_true (.inr (.inl hrsv)) ⟨.reservedField, if_pos hrsv⟩

/-- Settles O9: the decoder fails exactly on the illegal words, and `execute` raises on every decode error. -/
theorem illegalWordsAreRefusedExactly : Obligations.IllegalWordsAreRefusedExactly := by
  unfold Obligations.IllegalWordsAreRefusedExactly
  intro cw op
  have hdecode : illegalWord cw ↔ ∃ e, decode ⟨cw, op⟩ = .error e := illegalWord_iff_decode_error ⟨cw, op⟩
  refine ⟨hdecode, fun hill s => ?_, fun i hi s => execute_of_ok hi s⟩
  obtain ⟨e, he⟩ := hdecode.mp hill
  exact (execute_of_error he s).trans (raise_next_iff.mpr rfl)

end Machine
end Sys2Proof

/-! SUPPORT. How a generation sequence runs (spec/30_encoding.md R49 to R53): what a sequence that ends with OK did,
one `LCG.NEXT` and one `MT.NEXT` as transactions, and their repetition. -/

namespace Sys2Proof.Machine

/-! ### Sequences that end with OK -/

/-- A sequence ends with OK only if its first command does and the rest does after it. -/
theorem issueAll_cons_ok_inv {i : Instr} {rest : List Instr} {s : State} {q : SequenceResult}
    (h : issueAll (i :: rest) s = .next q) (hq : q.status = 0) :
    ∃ t r q', transact (encode i) s = .next (t, r) ∧ r.st = 0 ∧ issueAll rest t = .next q' ∧
      q = { q' with values := r.rv :: q'.values } := by
  rcases ht : transact (encode i) s with ⟨t, r⟩ | f | e
  · by_cases hr : r.st = 0
    · rcases hrest : issueAll rest t with q' | f | e
      · rw [issueAll_cons_ok ht hr hrest] at h
        exact ⟨t, r, q', rfl, hr, hrest, (Host.Outcome.next.inj h).symm⟩
      · simp [issueAll, ht, hr, hrest] at h
      · simp [issueAll, ht, hr, hrest] at h
    · rw [issueAll_cons_failed ht hr] at h
      obtain rfl := Host.Outcome.next.inj h
      exact absurd hq hr
  · simp [issueAll, ht] at h
  · simp [issueAll, ht] at h

theorem issueAll_values_length {l : List Instr} {s : State} {q : SequenceResult} (h : issueAll l s = .next q)
    (hq : q.status = 0) : q.values.length = l.length := by
  induction l generalizing s q with
  | nil =>
    obtain rfl := Host.Outcome.next.inj h
    rfl
  | cons i rest ih =>
    obtain ⟨t, r, q', -, -, hrest, rfl⟩ := issueAll_cons_ok_inv h hq
    exact congrArg Nat.succ (ih hrest hq)

theorem runPseudo_of_issueAll {p : Pseudo} {s t : State} {vs : List Word64}
    (h : issueAll p.expand s = .next ⟨t, 0, vs⟩) : runPseudo p s = .next ⟨t, 0, p.value vs⟩ := by
  rw [runPseudo, h]
  rfl

/-- `MT.GEN n` ends with OK when its commands do, and its outputs are their values (R49, R52). -/
theorem runPseudo_mtGen_ok_iff {n : Nat} {s t : State} {vs : List Word64} :
    runPseudo (.mtGen n) s = .next ⟨t, 0, .outputs vs⟩ ↔
      issueAll (List.replicate n .mtNext) s = .next ⟨t, 0, vs⟩ := by
  refine ⟨fun h => ?_, fun h => runPseudo_of_issueAll h⟩
  rw [runPseudo, Pseudo.expand] at h
  rcases hi : issueAll (List.replicate n .mtNext) s with ⟨u, st, ws⟩ | f | e <;> rw [hi] at h
  · obtain ⟨rfl, rfl, hv⟩ := PseudoResult.mk.inj (Host.Outcome.next.inj h)
    obtain rfl := PseudoValue.outputs.inj hv
    rfl
  · cases h
  · cases h

/-- A command whose meaning is known, issued by its encoding. -/
theorem transact_encode {i : Instr} {s t : State} {r : Response} (hd : decode (encode i) = .ok i)
    (hn : s.rsp = none) (he : exec i s = .next t) (hr : t.rsp = some r) :
    transact (encode i) s = .next ({ t with rsp := none, taken := t.taken ++ [r] }, r) :=
  transact_of_next hn ((execute_of_ok hd s).trans he) hr

/-! ### `LCG.NEXT` again and again (R50, R51) -/

/-- `s` is a constructed generator at rest, and `x` continues its `LCG_X` by the recurrence of
spec/40_lcg.md R60. -/
structure LcgOrbit (s : State) (x : Nat → Word64) : Prop where
  idle : s.rsp = none
  ready : s.lcgRdy = true
  modulus : s.lcgM ≠ 0
  start : x 0 = s.lcgX
  next : ∀ k, (x (k + 1)).toNat = (s.lcgA.toNat * (x k).toNat + s.lcgC.toNat) % s.lcgM.toNat

theorem LcgOrbit.lcgStep_eq {s : State} {x : Nat → Word64} (h : LcgOrbit s x) :
    lcgStep s.lcgM s.lcgA s.lcgC s.lcgX = x 1 := by
  apply BitVec.eq_of_toNat_eq
  rw [lcgStep_toNat h.modulus, ← h.start, h.next 0]

theorem execLcgNext_eq {s : State} (hr : s.lcgRdy = true) (hm : s.lcgM ≠ 0) :
    execLcgNext s = respond .ok (lcgStep s.lcgM s.lcgA s.lcgC s.lcgX)
      { s with lcgX := lcgStep s.lcgM s.lcgA s.lcgC s.lcgX } := by
  rw [execLcgNext, whenLcgReady_eq, if_pos hr, if_neg hm]

/-- One `LCG.NEXT` gives the next element and leaves a generator that gives the rest. -/
theorem LcgOrbit.transact_lcgNext {s : State} {x : Nat → Word64} (h : LcgOrbit s x) :
    ∃ t, transact (encode .lcgNext) s = .next (t, ⟨0, x 1⟩) ∧ LcgOrbit t (fun k => x (k + 1)) ∧
      t.architectural = { s.architectural with lcgX := x 1 } := by
  have he : exec .lcgNext s = .next { s with lcgX := x 1, rsp := some ⟨0, x 1⟩ } := by
    rw [exec, execLcgNext_eq h.ready h.modulus, h.lcgStep_eq]
    rfl
  exact ⟨_, transact_encode (by decide) h.idle he rfl, ⟨rfl, h.ready, h.modulus, rfl, fun k => h.next (k + 1)⟩, rfl⟩

theorem LcgOrbit.issueAll_lcgNext {s : State} {x : Nat → Word64} (h : LcgOrbit s x) (n : Nat) :
    ∃ t, issueAll (List.replicate n .lcgNext) s = .next ⟨t, 0, (List.range n).map fun k => x (k + 1)⟩ ∧
      t.architectural = { s.architectural with lcgX := x n } ∧ t.rsp = none := by
  induction n generalizing s x with
  | zero => exact ⟨s, rfl, by rw [h.start]; rfl, h.idle⟩
  | succ n ih =>
    obtain ⟨t, ht, horbit, harch⟩ := h.transact_lcgNext
    obtain ⟨u, hu, huarch, huidle⟩ := ih horbit
    refine ⟨u, ?_, by rw [huarch, harch], huidle⟩
    rw [List.replicate_succ, issueAll_cons_ok ht rfl hu, List.range_succ_eq_map, List.map_cons, List.map_map]
    rfl

/-- Settles O31: `LCG.GEN n` is `n` times `LCG.NEXT`, each of which moves the generator one element on. -/
theorem lcgGenGivesTheRecurrence : Obligations.LcgGenGivesTheRecurrence := by
  unfold Obligations.LcgGenGivesTheRecurrence
  intro n s x hidle hready hmod hstart hnext
  have horbit : LcgOrbit s x := ⟨hidle, hready, hmod, hstart, hnext⟩
  obtain ⟨t, ht, harch, hrsp⟩ := horbit.issueAll_lcgNext n
  exact ⟨t, runPseudo_of_issueAll ht, harch, hrsp⟩

/-- Byte `i` of `n` packed bytes belongs to one of the `ceil(n / w)` outputs. -/
theorem div_lt_outputsFor {n w i : Nat} (hw : 1 ≤ w) (hi : i < n) : i / w < outputsFor n w :=
  Nat.div_lt_of_lt_mul (Nat.mul_comm w _ ▸ hi.trans_le (le_outputsFor_mul n w hw))

/-- Settles O32: `LCG.GENB n, w` packs the outputs of `ceil(n / w)` times `LCG.NEXT`, which are enough for `n` bytes. -/
theorem lcgGenbPacksTheOutputs : Obligations.LcgGenbPacksTheOutputs := by
  unfold Obligations.LcgGenbPacksTheOutputs
  intro n w s x hw _ hidle hready hmod hstart hnext
  have horbit : LcgOrbit s x := ⟨hidle, hready, hmod, hstart, hnext⟩
  obtain ⟨t, ht, harch, -⟩ := horbit.issueAll_lcgNext (outputsFor n w)
  have hlen : n ≤ ((List.range (outputsFor n w)).map fun k => x (k + 1)).length * w := by
    simpa using le_outputsFor_mul n w hw
  refine ⟨t, _, runPseudo_of_issueAll (p := .lcgGenb n w) ht, pack_length hlen, fun i hi => ?_, harch, rfl⟩
  rw [pack_getElem? hlen hi]
  simp [List.getD_eq_getElem?_getD, div_lt_outputsFor hw hi]

/-! ### `MT.NEXT` again and again (R52, R53) -/

/-- After the twist of a spent array the index names a word. -/
theorem refillIfSpent_mtIdx_lt {s : State} (h : s.mtIdx.toNat ≤ 624) : (refillIfSpent s).mtIdx.toNat < 624 := by
  by_cases hs : s.mtIdx = 624
  · rw [refillIfSpent_of_spent hs, refill_mtIdx]
    decide
  · have hne : s.mtIdx.toNat ≠ 624 := fun e => hs (BitVec.eq_of_toNat_eq e)
    rw [refillIfSpent_of_not_spent hs]
    omega

theorem execMtNext_eq {s : State} (hr : s.mtRdy = true) (hi : s.mtIdx.toNat ≤ 624) :
    execMtNext s =
      respond .ok ((temper (wordAt (refillIfSpent s).mtW (refillIfSpent s).mtIdx.toNat)).zeroExtend 64)
        { refillIfSpent s with mtIdx := (refillIfSpent s).mtIdx + 1 } := by
  have hlt := refillIfSpent_mtIdx_lt hi
  rw [execMtNext, whenMtReady_eq, if_pos hr, wordAt_of_lt _ hlt]
  simp only [memRead_of_lt _ hlt]

/-- A ready unit at rest whose index is legal (spec/10_state.md R16). -/
structure MtReady (s : State) : Prop where
  idle : s.rsp = none
  ready : s.mtRdy = true
  index : s.mtIdx.toNat ≤ 624

/-- One `MT.NEXT` gives a 32-bit value and leaves a ready unit. -/
theorem MtReady.transact_mtNext {s : State} (h : MtReady s) :
    ∃ t v, transact (encode .mtNext) s = .next (t, ⟨0, v⟩) ∧ v.toNat < 2 ^ 32 ∧ MtReady t := by
  have he : exec .mtNext s = _ := execMtNext_eq h.ready h.index
  refine ⟨_, _, transact_encode (by decide) h.idle he rfl, ?_, ⟨rfl, ?_, ?_⟩⟩
  · exact (BitVec.toNat_setWidth_of_le (by decide)).trans_lt (temper _).isLt
  · exact (refillIfSpent_mtRdy s).trans h.ready
  · have hlt := refillIfSpent_mtIdx_lt h.index
    bv_omega

theorem MtReady.issueAll_mtNext {s : State} (h : MtReady s) (n : Nat) :
    ∃ t vs, issueAll (List.replicate n .mtNext) s = .next ⟨t, 0, vs⟩ ∧ ∀ v ∈ vs, v.toNat < 2 ^ 32 := by
  induction n generalizing s with
  | zero => exact ⟨s, [], rfl, by simp⟩
  | succ n ih =>
    obtain ⟨t, v, ht, hv, hready⟩ := h.transact_mtNext
    obtain ⟨u, vs, hu, hvs⟩ := ih hready
    exact ⟨u, v :: vs, issueAll_cons_ok ht rfl hu, List.forall_mem_cons.mpr ⟨hv, hvs⟩⟩

/-- Settles O54: by induction on `n`, since every `MT.NEXT` leaves a ready unit with a legal index. -/
theorem mtGenRepeatsMtNext : Obligations.MtGenRepeatsMtNext := by
  unfold Obligations.MtGenRepeatsMtNext
  intro n s hidle
  refine ⟨rfl, fun t r u vs ht hr hgen => ?_, fun hready hidx => ?_⟩
  · exact runPseudo_mtGen_ok_iff.mpr (issueAll_cons_ok ht hr (runPseudo_mtGen_ok_iff.mp hgen))
  · have hunit : MtReady s := ⟨hidle, hready, hidx⟩
    obtain ⟨t, vs, ht, hvs⟩ := hunit.issueAll_mtNext n
    have hlen : vs.length = n := by simpa using issueAll_values_length ht rfl
    exact ⟨t, vs, runPseudo_mtGen_ok_iff.mpr ht, hlen, hvs⟩

/-- Settles O59: `MT.GENB n` issues the commands of `MT.GEN ceil(n / 4)` and packs their outputs. -/
theorem mtGenbPacksTheOutputs : Obligations.MtGenbPacksTheOutputs := by
  unfold Obligations.MtGenbPacksTheOutputs
  intro n s t vs _ _ hgen
  have hissue : issueAll (Pseudo.mtGenb n).expand s = .next ⟨t, 0, vs⟩ := runPseudo_mtGen_ok_iff.mp hgen
  have hlen : n ≤ vs.length * 4 := by
    have hvs : vs.length = outputsFor n 4 := by simpa [Pseudo.expand] using issueAll_values_length hissue rfl
    exact hvs ▸ le_outputsFor_mul n 4 (by decide)
  exact ⟨_, runPseudo_of_issueAll hissue, pack_length hlen, fun i hi => pack_getElem? hlen hi⟩

end Sys2Proof.Machine

/-! The LCG unit (spec/40_lcg.md): what each of its commands decodes to and does, and the exact step. -/

namespace Sys2Proof.Machine

/-! ### The words of the unindexed commands (spec/30_encoding.md R38) -/

/-- A word with an opcode of format N and nothing else in it spells the command of that opcode. -/
theorem decode_packWord_of_formatN {opc : BitVec 8} {op : Word64} {i : Instr}
    (h : select opc 0 op = some (.N, i)) : decode ⟨packWord opc 0, op⟩ = .ok i := by
  have hidx := packWord_idx opc 0 op
  refine decode_of_fields (f := .N) ?_ (packWord_rsv opc 0 op) (.inl ⟨rfl, hidx⟩)
  rw [packWord_opc, hidx]
  exact h

/-! ### The exact step (R60, R61) -/

/-- The largest intermediate is that of three operands of `2^64 - 1`. -/
theorem multiplyAdd_le (a c x : Word64) : a.toNat * x.toNat + c.toNat ≤ 2 ^ 128 - 2 ^ 64 := by
  have hprod : a.toNat * x.toNat ≤ (2 ^ 64 - 1) * (2 ^ 64 - 1) :=
    Nat.mul_le_mul (Nat.le_sub_one_of_lt a.isLt) (Nat.le_sub_one_of_lt x.isLt)
  have hc := c.isLt
  omega

/-- So 128 bits hold it without wrapping. -/
theorem multiplyAdd128_toNat (a c x : Word64) :
    (a.zeroExtend 128 * x.zeroExtend 128 + c.zeroExtend 128).toNat = a.toNat * x.toNat + c.toNat := by
  have hle := multiplyAdd_le a c x
  have hwide (v : Word64) : (v.zeroExtend 128).toNat = v.toNat := BitVec.toNat_setWidth_of_le (by decide)
  rw [BitVec.toNat_add, BitVec.toNat_mul, hwide, hwide, hwide, Nat.mod_add_mod, Nat.mod_eq_of_lt (by omega)]

theorem lcgStep_eq_mod128 (m a c x : Word64) :
    lcgStep m a c x =
      ((a.zeroExtend 128 * x.zeroExtend 128 + c.zeroExtend 128) % m.zeroExtend 128).truncate 64 := by
  apply BitVec.eq_of_toNat_eq
  rw [BitVec.truncate_eq_setWidth, BitVec.toNat_setWidth, BitVec.toNat_umod, multiplyAdd128_toNat,
    BitVec.toNat_setWidth_of_le (by decide)]
  exact BitVec.toNat_ofNat _ _

/-- A modulus that divides `2^64` does not see a wrap at 64 bits. -/
theorem lcgStep_eq_wrapped {m : Word64} (a c x : Word64) (hm : m ≠ 0) (hdvd : m.toNat ∣ 2 ^ 64) :
    lcgStep m a c x = (a * x + c) % m := by
  apply BitVec.eq_of_toNat_eq
  rw [lcgStep_toNat hm, BitVec.toNat_umod, BitVec.toNat_add, BitVec.toNat_mul, Nat.mod_add_mod,
    Nat.mod_mod_of_dvd _ hdvd]

/-- Settles O29: the intermediate fits 128 bits, so the 128-bit remainder is the step, and a remainder modulo a divisor
of `2^64` is that of the wrapped value; the example of R61 is evaluated. -/
theorem lcgStepUsesTheFullIntermediate : Obligations.LcgStepUsesTheFullIntermediate := by
  unfold Obligations.LcgStepUsesTheFullIntermediate
  constructor
  · intro m a c x hm
    exact ⟨multiplyAdd_le a c x, lcgStep_eq_mod128 m a c x, lcgStep_eq_wrapped a c x hm⟩
  · rintro _ _ _ _ rfl rfl rfl rfl
    have hmersenne : (2 ^ 61 - 1 : Word64) = 0x1FFFFFFFFFFFFFFF := by norm_num
    rw [hmersenne]
    decide

/-! ### The commands (R63 to R71) -/

theorem execLcgNext_of_not_ready {s : State} (hr : s.lcgRdy = false) : execLcgNext s = raise .notReady s := by
  rw [execLcgNext, whenLcgReady_eq, hr, if_neg Bool.false_ne_true]

/-- Settles O28: a ready unit with a modulus answers the exact step; one that is not ready raises. -/
theorem lcgNextAdvancesByTheExactRecurrence : Obligations.LcgNextAdvancesByTheExactRecurrence := by
  unfold Obligations.LcgNextAdvancesByTheExactRecurrence
  intro op s
  refine ⟨decode_packWord_of_formatN (opc := 0x18) rfl, fun hready hmod => ?_, fun hready => ?_⟩
  · exact ⟨lcgStep s.lcgM s.lcgA s.lcgC s.lcgX, lcgStep_toNat hmod, execLcgNext_eq hready hmod⟩
  · exact execLcgNext_of_not_ready hready

/-- Settles O25: a parameter load has no check, and answers OK from the state with the operand stored and the flag
cleared. -/
theorem lcgParameterLoadsStoreAndClearReady : Obligations.LcgParameterLoadsStoreAndClearReady := by
  unfold Obligations.LcgParameterLoadsStoreAndClearReady
  intro op s
  refine ⟨⟨?_, respond_next_iff.mpr rfl⟩, ⟨?_, respond_next_iff.mpr rfl⟩, ⟨?_, respond_next_iff.mpr rfl⟩⟩
  · exact decode_packWord_of_formatN (opc := 0x10) rfl
  · exact decode_packWord_of_formatN (opc := 0x11) rfl
  · exact decode_packWord_of_formatN (opc := 0x12) rfl

/-- Settles O26: the two outcomes are the branches of the one check of `execLcgInit_eq`. -/
theorem lcgInitConstructsOrFails : Obligations.LcgInitConstructsOrFails := by
  unfold Obligations.LcgInitConstructsOrFails
  intro op s
  refine ⟨decode_packWord_of_formatN (opc := 0x13) rfl, fun hmod hseed => ?_, fun hbad => ?_⟩
  · exact (execLcgInit_eq op s).trans (if_pos ⟨hmod, hseed⟩)
  · have hfails : ¬(s.lcgM ≠ 0 ∧ op.toNat < s.lcgM.toNat) := by
      rwa [not_and_or, not_not, Nat.not_lt]
    exact (execLcgInit_eq op s).trans (if_neg hfails)

/-- Settles O27: a read has no check, and answers OK from the state as it is. -/
theorem lcgReadsReturnTheRegisters : Obligations.LcgReadsReturnTheRegisters := by
  unfold Obligations.LcgReadsReturnTheRegisters
  intro op s
  refine ⟨⟨?_, respond_next_iff.mpr rfl⟩, ⟨?_, respond_next_iff.mpr rfl⟩, ⟨?_, respond_next_iff.mpr rfl⟩,
    ⟨?_, respond_next_iff.mpr rfl⟩⟩
  · exact decode_packWord_of_formatN (opc := 0x14) rfl
  · exact decode_packWord_of_formatN (opc := 0x15) rfl
  · exact decode_packWord_of_formatN (opc := 0x16) rfl
  · exact decode_packWord_of_formatN (opc := 0x17) rfl

end Sys2Proof.Machine

/-! The MT unit (spec/41_mt_engine.md) and the TMP unit: what each command decodes to and does, the twist pass by pass,
and the tempering steps bit by bit. -/

namespace Sys2Proof.Machine

/-! ### The words of the indexed commands (spec/30_encoding.md R39) -/

/-- A word with an opcode of format X and a legal index spells the command of that opcode and index. -/
theorem decode_packWord_of_formatX {opc : BitVec 8} {idx : Index} {op : Word64} {i : Instr}
    (h : select opc idx op = some (.X, i)) (hidx : idx.toNat < 624) : decode ⟨packWord opc idx, op⟩ = .ok i := by
  have hfield := packWord_idx opc idx op
  refine decode_of_fields (f := .X) ?_ (packWord_rsv opc idx op) (.inr ⟨rfl, hfield.symm ▸ hidx⟩)
  rw [packWord_opc, hfield]
  exact h

/-! ### The twist pass by pass (R81) -/

theorem getLsbD_zero_iff (y : Word32) : y.getLsbD 0 = true ↔ y.toNat % 2 = 1 := by
  simp [BitVec.getLsbD, Nat.testBit_zero]

theorem twistG_eq {hi lo y : Word32} (hy : y = (hi &&& 0x80000000) ||| (lo &&& 0x7FFFFFFF)) :
    twistG hi lo = (y >>> 1) ^^^ (if y.toNat % 2 = 1 then 0x9908B0DF else 0) := by
  subst hy
  exact congrArg (_ ^^^ ·) (if_congr (getLsbD_zero_iff _) rfl rfl)

theorem wordAt_of_ge (w : MtWords) {i : Nat} (h : 624 ≤ i) : wordAt w i = 0 := by
  simp [wordAt, h]

theorem wordAt_twistPass_self (w : MtWords) {i : Nat} (hi : i < 624) :
    wordAt (twistPass w ⟨i, hi⟩) i =
      wordAt w ((i + 397) % 624) ^^^ twistG (wordAt w i) (wordAt w ((i + 1) % 624)) := by
  rw [wordAt_of_lt _ hi, twistPass_getElem, if_pos rfl, wordAt_of_lt w hi,
    wordAt_of_lt w (Nat.mod_lt (i + 397) (by decide)), wordAt_of_lt w (Nat.mod_lt (i + 1) (by decide))]

theorem wordAt_twistPass_other (w : MtWords) {i : Nat} (hi : i < 624) {j : Nat} (hj : j ≠ i) :
    wordAt (twistPass w ⟨i, hi⟩) j = wordAt w j := by
  rcases Nat.lt_or_ge j 624 with h | h
  · rw [wordAt_of_lt _ h, twistPass_getElem, if_neg hj.symm, wordAt_of_lt w h]
  · rw [wordAt_of_ge _ h, wordAt_of_ge w h]

/-- The array before pass `i` of the twist of `o`; from 624 on it is the twisted one. -/
def wordsBeforePass (o : MtWords) (i : Nat) : MtWords := twistPasses o (min i 624) (Nat.min_le_right i 624)

theorem wordsBeforePass_zero (o : MtWords) : wordsBeforePass o 0 = o := twistPasses_zero o _

theorem wordsBeforePass_last (o : MtWords) : wordsBeforePass o 624 = twist o := by
  simp only [wordsBeforePass, Nat.min_self, twist]

theorem wordsBeforePass_succ (o : MtWords) {i : Nat} (hi : i < 624) :
    wordsBeforePass o (i + 1) = twistPass (wordsBeforePass o i) ⟨i, hi⟩ := by
  simp only [wordsBeforePass, Nat.min_eq_left hi.le, Nat.min_eq_left (Nat.succ_le_of_lt hi), twistPasses_succ]

/-- Settles O42: the arrays are those that the first `i` passes leave, and each pass is one `twistPass`. -/
theorem twistRunsTheLoopInPlace : Obligations.TwistRunsTheLoopInPlace := by
  unfold Obligations.TwistRunsTheLoopInPlace
  intro o
  refine ⟨wordsBeforePass o, wordsBeforePass_zero o, wordsBeforePass_last o, fun i hi y hy => ?_⟩
  rw [wordsBeforePass_succ o hi]
  refine ⟨fun j hj => wordAt_twistPass_other _ hi hj, ?_⟩
  rw [wordAt_twistPass_self _ hi, twistG_eq hy, BitVec.xor_assoc]

/-! ### The tempering steps bit by bit (R76 to R79) -/

/-- A right shift by `k` brings a bit of `v` to the positions up to `31 - k` only. -/
theorem xor_shiftRight_getLsbD (v : Word32) {k m : Nat} (hkm : k + m = 31) (i : Nat) :
    (v ^^^ (v >>> k)).getLsbD i = (v.getLsbD i ^^ (decide (i ≤ m) && v.getLsbD (i + k))) := by
  rw [BitVec.getLsbD_xor, BitVec.getLsbD_ushiftRight, Nat.add_comm k i]
  by_cases hi : i ≤ m
  · simp [hi]
  · simp [hi, BitVec.getLsbD_of_ge v (i + k) (by omega)]

/-- A left shift by `k` brings a bit of `v` to the positions from `k` on only, and there the mask selects. -/
theorem xor_shiftLeft_and_getLsbD (v mask : Word32) (k : Nat) {i : Nat} (hi : i < 32) :
    (v ^^^ ((v <<< k) &&& mask)).getLsbD i =
      (v.getLsbD i ^^ (decide (k ≤ i) && v.getLsbD (i - k) && mask.getLsbD i)) := by
  rw [BitVec.getLsbD_xor, BitVec.getLsbD_and, BitVec.getLsbD_shiftLeft]
  by_cases hk : k ≤ i
  · simp [hk, hi, Nat.not_lt.mpr hk]
  · simp [hk, Nat.lt_of_not_le hk]

/-- The mask of T1 selects every bit. -/
theorem T1_eq (v : Word32) : T1 v = v ^^^ (v >>> 11) := congrArg (v ^^^ ·) (BitVec.and_allOnes)

/-- Settles O46: T1 and T4 are right shifts without a mask that selects, T2 and T3 left shifts under one. -/
theorem temperingStepsBitByBit : Obligations.TemperingStepsBitByBit := by
  unfold Obligations.TemperingStepsBitByBit
  intro v i hi
  refine ⟨?_, xor_shiftLeft_and_getLsbD v temperB 7 hi, xor_shiftLeft_and_getLsbD v temperC 15 hi, ?_⟩
  · rw [T1_eq]
    exact xor_shiftRight_getLsbD v (m := 20) rfl i
  · exact xor_shiftRight_getLsbD v (k := 18) (m := 13) rfl i

/-! ### Loading and reading the words and the index (R82 to R87) -/

/-- One step of the recurrence as a number modulo `2^32` (R82). -/
theorem seedNext_eq_ofNat (i : Nat) (prev : Word32) :
    seedNext i prev = BitVec.ofNat 32 (1812433253 * (prev ^^^ (prev >>> 30)).toNat + i) := by
  rw [BitVec.ofNat_add, BitVec.ofNat_mul, BitVec.ofNat_toNat, BitVec.setWidth_eq]
  rfl

/-- The state that a successful `MT.SEED` leaves (R83). -/
def seededWith (seed : Word32) (s : State) : State :=
  { s with mtW := seedWords seed, mtIdx := 624, mtRdy := true, rsp := some ⟨0, 0⟩ }

theorem execMtSeed_of_fits {op : Word64} (hop : op.toNat < 2 ^ 32) (s : State) :
    execMtSeed op s = .next (seededWith (op.setWidth 32) s) := by
  rw [execMtSeed, withU32_eq, if_pos hop]
  simp only [respond, setMtReady, seededWith, code_ok]

theorem memRead_seededWith (seed : Word32) (s : State) {i : Nat} (hi : i < 624) :
    memRead (BitVec.ofNat 10 i) (seededWith seed s) = some (seedWord seed i) := by
  have hidx : (BitVec.ofNat 10 i).toNat = i := (BitVec.toNat_ofNat i 10).trans (Nat.mod_eq_of_lt (by omega))
  simp only [memRead, seededWith, hidx, Vector.getElem?_eq_getElem hi, seedWords_getElem seed i hi]

/-- Settles O35: `MT.SEED` leaves `seedWords` of its operand, whose words obey the recurrence. -/
theorem mtSeedFillsTheWords : Obligations.MtSeedFillsTheWords := by
  unfold Obligations.MtSeedFillsTheWords
  intro op s
  refine ⟨decode_packWord_of_formatN (opc := 0x20) rfl, fun hop => ?_,
    fun hop => (withU32_eq op s _).trans (if_neg hop.not_gt)⟩
  refine ⟨_, execMtSeed_of_fits hop s, rfl, memRead_seededWith _ s (by decide), fun i p hi hp => ?_⟩
  rw [memRead_seededWith _ s (Nat.lt_of_succ_lt hi)] at hp
  obtain rfl := Option.some.inj hp
  rw [memRead_seededWith _ s hi, seedWord, seedNext_eq_ofNat]

theorem execMtLdw_of_index_ge {idx : Index} (hidx : 624 ≤ idx.toNat) (op : Word64) (s : State) :
    execMtLdw idx op s = raise .illegalCommand s := by
  rw [execMtLdw, whenIndexLegal_eq, if_neg hidx.not_gt]

/-- With a legal index only the operand is left to check. -/
theorem execMtLdw_of_index_lt {idx : Index} (hidx : idx.toNat < 624) (op : Word64) (s : State) :
    execMtLdw idx op s = if op.toNat < 2 ^ 32 then respond .ok 0 (memWrite idx (op.setWidth 32) s)
      else raise .invalidParameters s := by
  rw [execMtLdw, whenIndexLegal_eq, if_pos hidx, withU32_eq]

/-- Settles O36: the command is `memWrite` behind its two checks. -/
theorem mtLdwWritesOneWord : Obligations.MtLdwWritesOneWord := by
  unfold Obligations.MtLdwWritesOneWord
  intro idx op s
  refine ⟨fun hidx => ?_, fun hidx hop => ?_, fun hidx hop => ?_, fun hidx => execMtLdw_of_index_ge hidx op s⟩
  · rw [opcode_add_index 0x21 idx _ rfl]
    exact decode_packWord_of_formatX rfl hidx
  · exact ⟨_, (execMtLdw_of_index_lt hidx op s).trans (if_pos hop), memRead_write_self _ s hidx,
      fun j hj => memRead_write_other _ s hj.symm, rfl⟩
  · exact (execMtLdw_of_index_lt hidx op s).trans (if_neg hop.not_gt)

/-- Settles O38: the two outcomes are the branches of the one check, on the whole operand. -/
theorem mtLdiSetsTheIndexOrFails : Obligations.MtLdiSetsTheIndexOrFails := by
  unfold Obligations.MtLdiSetsTheIndexOrFails
  intro op s
  refine ⟨decode_packWord_of_formatN (opc := 0x23) rfl, fun hop => ?_,
    fun hop => (withIdx625_eq op s _).trans (if_neg hop.not_ge)⟩
  have hkeeps : (op.setWidth 10).toNat = op.toNat := by
    rw [BitVec.toNat_setWidth]
    omega
  exact ⟨op.setWidth 10, hkeeps, (withIdx625_eq op s _).trans (if_pos hop)⟩

theorem execMtRdw_of_memRead {idx : Index} {s : State} {w : Word32} (h : memRead idx s = some w) :
    execMtRdw idx s = respond .ok (w.zeroExtend 64) s := by
  rw [execMtRdw, h]

/-- Settles O39: `MT.RDW` answers the word that `memRead` finds and raises where there is none; `MT.RDI` has no
check. -/
theorem mtReadsReturnTheWordAndTheIndex : Obligations.MtReadsReturnTheWordAndTheIndex := by
  unfold Obligations.MtReadsReturnTheWordAndTheIndex
  intro idx op s
  refine ⟨fun hidx => ?_, decode_packWord_of_formatN (opc := 0x25) rfl, fun w hw => execMtRdw_of_memRead hw,
    fun hidx hnone => ?_, fun hidx => (execMtRdw_eq idx s).trans (if_neg hidx.not_gt), respond_next_iff.mpr rfl⟩
  · rw [opcode_add_index 0x24 idx _ rfl]
    exact decode_packWord_of_formatX rfl hidx
  · exact hidx.not_ge ((memRead_eq_none_iff s).mp hnone)

/-! ### Twisting and generating (R88, R89) -/

theorem whenMtReady_of_ready {s : State} (hr : s.mtRdy = true) (body : Result) : whenMtReady s body = body := if_pos hr

theorem whenMtReady_of_not_ready {s : State} (hr : s.mtRdy = false) (body : Result) :
    whenMtReady s body = raise .notReady s := by
  rw [whenMtReady_eq, hr, if_neg Bool.false_ne_true]

theorem execMtNext_of_index_lt {s : State} (hr : s.mtRdy = true) (hi : s.mtIdx.toNat < 624) :
    execMtNext s = respond .ok ((temper (s.mtW[s.mtIdx.toNat]'hi)).zeroExtend 64) { s with mtIdx := s.mtIdx + 1 } := by
  have hs : s.mtIdx ≠ 624 := fun h => absurd (h ▸ hi) (by decide)
  rw [execMtNext_eq hr hi.le, refillIfSpent_of_not_spent hs, wordAt_of_lt _ hi]

theorem execMtNext_of_index_zero {s : State} (hr : s.mtRdy = true) (hs : s.mtIdx = 0) :
    execMtNext s = respond .ok ((temper s.mtW[0]).zeroExtend 64) { s with mtIdx := 1 } := by
  have hlt : s.mtIdx.toNat < 624 := by
    rw [hs]
    decide
  rw [execMtNext_of_index_lt hr hlt]
  simp only [hs]
  rfl

theorem execMtNext_of_spent {s : State} (hr : s.mtRdy = true) (hs : s.mtIdx = 624) :
    execMtNext s = respond .ok ((temper (twist s.mtW)[0]).zeroExtend 64) { refill s with mtIdx := 1 } := by
  rw [execMtNext_eq hr (hs ▸ by decide), refillIfSpent_of_spent hs, refill_mtW, refill_mtIdx,
    ← wordAt_of_lt (twist s.mtW) (by decide)]
  rfl

/-- At index 624 the twist of `MT.NEXT` may as well have been done before, whatever response that left (R88). -/
theorem execMtNext_refill {s : State} (hr : s.mtRdy = true) (hs : s.mtIdx = 624) (r : Option Response) :
    execMtNext { refill s with rsp := r } = execMtNext s := by
  have hzero : ({ refill s with rsp := r } : State).mtIdx = 0 := rfl
  exact (execMtNext_of_index_zero (s := { refill s with rsp := r }) hr hzero).trans (execMtNext_of_spent hr hs).symm

/-- Settles O41: the index decides between the word it names and word 0 of the twisted array; a unit that is not
ready raises. -/
theorem mtNextGivesTheTemperedWord : Obligations.MtNextGivesTheTemperedWord := by
  unfold Obligations.MtNextGivesTheTemperedWord
  intro op s
  refine ⟨decode_packWord_of_formatN (opc := 0x28) rfl, fun hready hidx => ?_, fun hready hidx => ?_,
    fun hready => whenMtReady_of_not_ready hready _⟩
  · exact ⟨_, memRead_of_lt s hidx, execMtNext_of_index_lt hready hidx, by bv_omega⟩
  · exact ⟨_, rfl, execMtNext_of_spent hready (BitVec.eq_of_toNat_eq hidx)⟩

/-- Settles O40: a ready unit is refilled, and the refill is what `MT.NEXT` alone does first at index 624. -/
theorem mtTwistCommandTwists : Obligations.MtTwistCommandTwists := by
  unfold Obligations.MtTwistCommandTwists
  intro op s
  refine ⟨decode_packWord_of_formatN (opc := 0x26) rfl, fun hready => ?_,
    fun hready => whenMtReady_of_not_ready hready _⟩
  exact ⟨_, whenMtReady_of_ready hready _, rfl, fun hspent => execMtNext_refill hready hspent _⟩

/-! ### The TMP unit (R90, spec/42_untemper.md R97) -/

/-- Settles O50: both commands have the operand check alone, and answer from the state as it is. -/
theorem tmpCommandsApplyTheirFunctions : Obligations.TmpCommandsApplyTheirFunctions := by
  unfold Obligations.TmpCommandsApplyTheirFunctions
  intro op s
  refine ⟨decode_packWord_of_formatN (opc := 0x30) rfl, decode_packWord_of_formatN (opc := 0x31) rfl, fun hop => ?_,
    fun hop => ?_⟩
  · exact ⟨(withU32_eq op s _).trans (if_pos hop), (withU32_eq op s _).trans (if_pos hop)⟩
  · exact ⟨(withU32_eq op s _).trans (if_neg hop.not_gt), (withU32_eq op s _).trans (if_neg hop.not_gt)⟩

end Sys2Proof.Machine

/-! The inverse tempering steps (spec/42_untemper.md). Both inversions of its section 2 solve an equation `f v = v`
whose right side fixes the bits one after the other, from one end of the word: `k` more bits of `f v` are known than of
`v`. Such an equation has one solution, which the rounds and the bit-by-bit loop both reach; this is proved once, for
either end of the word, and gives the four steps (R91 to R94). -/

namespace Sys2Proof.Machine

/-! ### An equation that fixes the bits one after the other has one solution -/

/-- `r` numbers the 32 bit positions from one end of the word, and as its own inverse gives the position of a number. -/
def IsBitOrder (r : Nat → Nat) : Prop := ∀ i < 32, r i < 32 ∧ r (r i) = i

/-- The first `n` bits in the order `r` are the same. -/
def AgreeOn (r : Nat → Nat) (n : Nat) (v w : Word32) : Prop := ∀ i < 32, r i < n → v.getLsbD i = w.getLsbD i

/-- `f` knows `k` bits of its result more than of its argument. -/
def GainsBits (r : Nat → Nat) (k : Nat) (f : Word32 → Word32) : Prop :=
  ∀ n v w, AgreeOn r n v w → AgreeOn r (n + k) (f v) (f w)

section
variable {r : Nat → Nat} {k : Nat} {f : Word32 → Word32}

theorem agreeOn_zero (v w : Word32) : AgreeOn r 0 v w := fun _ _ h => absurd h (Nat.not_lt_zero _)

theorem AgreeOn.eq {n : Nat} {v w : Word32} (h : AgreeOn r n v w) (hr : IsBitOrder r) (hn : 32 ≤ n) : v = w :=
  BitVec.eq_of_getLsbD_eq fun i hi => h i hi ((hr i hi).1.trans_le hn)

theorem GainsBits.agreeOn_iterate (hf : GainsBits r k f) (n : Nat) (v w : Word32) :
    AgreeOn r (k * n) (f^[n] v) (f^[n] w) := by
  induction n with
  | zero => exact agreeOn_zero v w
  | succ n ih =>
    rw [Function.iterate_succ_apply', Function.iterate_succ_apply']
    exact hf _ _ _ ih

/-- Enough rounds reach the one solution, from wherever they start. -/
theorem GainsBits.fixed_iff_eq_iterate (hf : GainsBits r k f) (hr : IsBitOrder r) {n : Nat} (hn : 32 ≤ k * n)
    (v₀ v : Word32) : f v = v ↔ v = f^[n] v₀ := by
  have same : ∀ w w', f^[n] w = f^[n] w' := fun w w' => (hf.agreeOn_iterate n w w').eq hr hn
  constructor
  · intro hv
    calc v = f^[n] v := (Function.iterate_fixed hv n).symm
      _ = f^[n] v₀ := same v v₀
  · rintro rfl
    calc f (f^[n] v₀) = f^[n] (f v₀) := (Function.Commute.refl f).iterate_right n v₀
      _ = f^[n] v₀ := same _ _

/-- The loop that sets each bit, in the order `r`, to that of `f` of the word so far reaches the solution too: the first
`m` passes make the first `m` bits right, and these are all that the next pass needs. -/
theorem GainsBits.agreeOn_foldl (hf : GainsBits r k f) (hr : IsBitOrder r) (hk : 1 ≤ k) {u : Word32} (hu : f u = u)
    {pass : Word32 → Nat → Word32} (hpass : ∀ v, ∀ i < 32, pass v i = withBit v i ((f v).getLsbD i)) (v₀ : Word32)
    {m : Nat} (hm : m ≤ 32) : AgreeOn r m (((List.range m).map r).foldl pass v₀) u := by
  induction m with
  | zero => exact agreeOn_zero _ u
  | succ m ih =>
    have known := ih (Nat.le_of_succ_le hm)
    obtain ⟨hrm, hrr⟩ := hr m hm
    rw [List.range_succ, List.map_append, List.foldl_append]
    intro i hi hri
    rw [List.map_singleton, List.foldl_cons, List.foldl_nil, hpass _ _ hrm, withBit_getLsbD _ _ _ _ hrm hi]
    split
    case isTrue h =>
      have next := hf m _ _ known (r m) hrm (by omega)
      rw [hu] at next
      rw [next, h]
    case isFalse h =>
      have hne : r i ≠ m := fun e => h ((hr i hi).2.symm.trans (congrArg r e))
      exact known i hi (by omega)

end

/-! ### The two inversions (section 2) -/

/-- One round of the right inversion. -/
def rightRound (y : Word32) (k : Nat) (mask v : Word32) : Word32 := y ^^^ ((v >>> k) &&& mask)

/-- One round of the left inversion. -/
def leftRound (y : Word32) (k : Nat) (mask v : Word32) : Word32 := y ^^^ ((v <<< k) &&& mask)

/-- The right inversion goes from bit 31 down, the left one from bit 0 up. -/
def fromTop (i : Nat) : Nat := 31 - i

theorem isBitOrder_fromTop : IsBitOrder fromTop := fun i hi => by unfold fromTop; omega

theorem isBitOrder_id : IsBitOrder id := fun _ hi => ⟨hi, rfl⟩

/-- A round with `y` on the left is the equation with `y` on the right. -/
theorem xor_eq_iff_xor_eq {v x y : Word32} : v ^^^ x = y ↔ y ^^^ x = v := by
  constructor <;> rintro rfl <;> rw [BitVec.xor_assoc, BitVec.xor_self, BitVec.xor_zero]

section
variable (y mask : Word32) (k : Nat)

theorem rightRound_getLsbD (v : Word32) (i : Nat) : (rightRound y k mask v).getLsbD i =
    (y.getLsbD i ^^ (if i + k ≤ 31 then v.getLsbD (i + k) && mask.getLsbD i else false)) := by
  rw [rightRound, BitVec.getLsbD_xor, BitVec.getLsbD_and, BitVec.getLsbD_ushiftRight, Nat.add_comm k i]
  split
  case isTrue => rfl
  case isFalse h => rw [BitVec.getLsbD_of_ge v (i + k) (by omega), Bool.false_and]

theorem leftRound_getLsbD (v : Word32) {i : Nat} (hi : i < 32) : (leftRound y k mask v).getLsbD i =
    (y.getLsbD i ^^ (if k ≤ i then v.getLsbD (i - k) && mask.getLsbD i else false)) := by
  rw [leftRound, BitVec.getLsbD_xor, BitVec.getLsbD_and, BitVec.getLsbD_shiftLeft]
  by_cases hk : k ≤ i
  · simp [hk, hi, Nat.not_lt.mpr hk]
  · simp [hk, Nat.lt_of_not_le hk]

theorem gainsBits_rightRound : GainsBits fromTop k (rightRound y k mask) := by
  intro n v w h i hi hin
  rw [rightRound_getLsbD, rightRound_getLsbD]
  split
  case isTrue hik => rw [h (i + k) (by omega) (by unfold fromTop at *; omega)]
  case isFalse => rfl

theorem gainsBits_leftRound : GainsBits id k (leftRound y k mask) := by
  intro n v w h i hi hin
  rw [leftRound_getLsbD y mask k v hi, leftRound_getLsbD y mask k w hi]
  split
  case isTrue hki => rw [h (i - k) (by omega) (by simp only [id] at *; omega)]
  case isFalse => rfl

/-- `v_0 = y` is itself the round after the zero word. -/
theorem invRightRound_eq_iterate (j : Nat) : invRightRound y k mask j = (rightRound y k mask)^[j + 1] 0 := by
  induction j with
  | zero => simp [rightRound]
  | succ j ih => rw [Function.iterate_succ_apply', ← ih, invRightRound_succ, rightRound]

theorem invLeftRound_eq_iterate (j : Nat) : invLeftRound y k mask j = (leftRound y k mask)^[j + 1] 0 := by
  induction j with
  | zero => simp [leftRound]
  | succ j ih => rw [Function.iterate_succ_apply', ← ih, invLeftRound_succ, leftRound]

variable {k} (hk : 1 ≤ k) (hk' : k ≤ 31)
include hk hk'

theorem rightRound_fixed_iff (v : Word32) : rightRound y k mask v = v ↔ v = invRight y k mask := by
  rw [invRight, invRightRound_eq_iterate]
  exact (gainsBits_rightRound y mask k).fixed_iff_eq_iterate isBitOrder_fromTop (inversionRounds_covers hk hk') 0 v

theorem leftRound_fixed_iff (v : Word32) : leftRound y k mask v = v ↔ v = invLeft y k mask := by
  rw [invLeft, invLeftRound_eq_iterate]
  exact (gainsBits_leftRound y mask k).fixed_iff_eq_iterate isBitOrder_id (inversionRounds_covers hk hk') 0 v

theorem invRightBits_eq_invRight : invRightBits y k mask = invRight y k mask :=
  ((gainsBits_rightRound y mask k).agreeOn_foldl isBitOrder_fromTop hk
    ((rightRound_fixed_iff y mask hk hk' _).mpr rfl)
    (fun v i _ => congrArg (withBit v i) (rightRound_getLsbD y mask k v i).symm) 0 le_rfl).eq isBitOrder_fromTop le_rfl

theorem invLeftBits_eq_invLeft : invLeftBits y k mask = invLeft y k mask :=
  ((gainsBits_leftRound y mask k).agreeOn_foldl isBitOrder_id hk
    ((leftRound_fixed_iff y mask hk hk' _).mpr rfl)
    (fun v i hi => congrArg (withBit v i) (leftRound_getLsbD y mask k v hi).symm) 0 le_rfl).eq isBitOrder_id le_rfl

/-- `InvRight` gives the one solution of its equation. -/
theorem xor_shiftRight_eq_iff (v : Word32) : v ^^^ ((v >>> k) &&& mask) = y ↔ v = invRight y k mask :=
  xor_eq_iff_xor_eq.trans (rightRound_fixed_iff y mask hk hk' v)

/-- `InvLeft` gives the one solution of its equation. -/
theorem xor_shiftLeft_eq_iff (v : Word32) : v ^^^ ((v <<< k) &&& mask) = y ↔ v = invLeft y k mask :=
  xor_eq_iff_xor_eq.trans (leftRound_fixed_iff y mask hk hk' v)

end

/-! ### The four inverse steps (R91 to R94) -/

/-- R91: one round, and the mask selects every bit. -/
theorem U4_eq (y : Word32) : U4 y = y ^^^ (y >>> 18) := congrArg (y ^^^ ·) BitVec.and_allOnes

/-- R94: two rounds, and the mask selects every bit. -/
theorem U1_eq (y : Word32) : U1 y = y ^^^ (y >>> 11) ^^^ (y >>> 22) := by
  change y ^^^ (((y ^^^ ((y >>> 11) &&& BitVec.allOnes 32)) >>> 11) &&& BitVec.allOnes 32) = _
  rw [BitVec.and_allOnes, BitVec.and_allOnes, BitVec.ushiftRight_xor_distrib, ← BitVec.shiftRight_add,
    BitVec.xor_assoc]

theorem T4_eq_iff (v y : Word32) : T4 v = y ↔ v = U4 y := by
  rw [T4, ← BitVec.and_allOnes (x := v >>> temperL)]
  exact xor_shiftRight_eq_iff y (BitVec.allOnes 32) (by decide) (by decide) v

theorem T3_eq_iff (v y : Word32) : T3 v = y ↔ v = U3 y :=
  xor_shiftLeft_eq_iff y temperC (by decide) (by decide) v

theorem T2_eq_iff (v y : Word32) : T2 v = y ↔ v = U2 y :=
  xor_shiftLeft_eq_iff y temperB (by decide) (by decide) v

theorem T1_eq_iff (v y : Word32) : T1 v = y ↔ v = U1 y :=
  xor_shiftRight_eq_iff y temperD (by decide) (by decide) v

/-- A step whose equation has one solution is undone by the solution on both sides. -/
theorem inverse_of_eq_iff {T U : Word32 → Word32} (h : ∀ v y, T v = y ↔ v = U y) (y : Word32) :
    U (T y) = y ∧ T (U y) = y :=
  ⟨((h y (T y)).mp rfl).symm, (h (U y) y).mpr rfl⟩

/-- Settles O49: each step is an inversion with a shift between 1 and 31, so it is its bit-by-bit loop and undoes its
tempering step on both sides; the rounds written out are those of `J`. -/
theorem inverseStepsUndoTheTemperingSteps : Obligations.InverseStepsUndoTheTemperingSteps := by
  unfold Obligations.InverseStepsUndoTheTemperingSteps
  intro y
  refine ⟨rfl, ⟨?_, U4_eq y, U4_eq y, inverse_of_eq_iff T4_eq_iff y⟩, ⟨?_, ?_, inverse_of_eq_iff T3_eq_iff y⟩,
    ⟨?_, ?_, inverse_of_eq_iff T2_eq_iff y⟩, ?_, U1_eq y, inverse_of_eq_iff T1_eq_iff y⟩
  · exact (invRightBits_eq_invRight y _ (by decide) (by decide)).symm
  · exact (invLeftBits_eq_invLeft y _ (by decide) (by decide)).symm
  · rintro v₁ rfl
    rfl
  · exact (invLeftBits_eq_invLeft y _ (by decide) (by decide)).symm
  · rintro v₁ v₂ v₃ rfl rfl rfl
    rfl
  · exact (invRightBits_eq_invRight y _ (by decide) (by decide)).symm

end Sys2Proof.Machine

/-! The SYS unit (spec/43_sys.md): the bound of the status view, and what `SYS.RDSTAT` answers. -/

namespace Sys2Proof.Machine

/-- The status view is two bits wide before it is zero-extended. -/
theorem statusView_toNat_le (s : State) : (statusView s).toNat ≤ 3 := by
  have hwidth : (statusView s).toNat = (BitVec.ofBool s.mtRdy ++ BitVec.ofBool s.lcgRdy).toNat :=
    BitVec.toNat_setWidth_of_le (by decide)
  rw [hwidth]
  exact Nat.le_of_lt_succ (BitVec.isLt _)

/-- Settles O23: the word has the opcode of `SYS.RDSTAT` and nothing else in it, and the command has no check: it
answers the status view from the state as it is. -/
theorem rdstatReturnsTheReadyFlags : Obligations.RdstatReturnsTheReadyFlags := by
  unfold Obligations.RdstatReturnsTheReadyFlags
  intro op s
  obtain ⟨hlcg, hmt⟩ := statusView_getLsbD s
  refine ⟨?_, statusView s, respond_next_iff.mpr rfl, hlcg, hmt, statusView_toNat_le s⟩
  exact decode_packWord_of_formatN (opc := 0x01) rfl

end Sys2Proof.Machine

/-! Failures (spec/60_exceptions.md R104 to R109): a decoded command has a legal index, so its failed check is one of
R104 and R106, and the status of its response names that check. -/

namespace Sys2Proof

theorem decode_ok_inv {c : Command} {i : Instr} (h : decode c = .ok i) :
    ∃ f, select c.opc c.idx c.op = some (f, i) ∧ c.rsv = 0 ∧
      ((f = .N ∧ c.idx = 0) ∨ (f = .X ∧ c.idx.toNat < 624)) := by
  unfold decode at h
  rcases hs : select c.opc c.idx c.op with _ | ⟨_ | _, j⟩ <;> simp only [hs] at h
  case none => cases h
  case some.N =>
    split_ifs at h with hrsv hidx
    cases h
    exact ⟨.N, rfl, not_not.mp hrsv, .inl ⟨rfl, not_not.mp hidx⟩⟩
  case some.X =>
    split_ifs at h with hrsv hidx
    cases h
    exact ⟨.X, rfl, not_not.mp hrsv, .inr ⟨rfl, (indexLegal_iff _).mp hidx⟩⟩

/-- The decoder passes on the index field of the word and no other index. -/
theorem select_wf {opc : BitVec 8} {idx : Index} {op : Word64} {f : Format} {i : Instr}
    (h : select opc idx op = some (f, i)) (hidx : idx.toNat < 624) : i.wf = true := by
  unfold select at h
  split at h <;> cases h <;> simp [Instr.wf, indexLegal_iff, hidx]

theorem decode_wf {c : Command} {i : Instr} (h : decode c = .ok i) : i.wf = true := by
  obtain ⟨f, hs, -, ⟨-, hidx⟩ | ⟨-, hidx⟩⟩ := decode_ok_inv h
  · exact select_wf hs (hidx ▸ by decide)
  · exact select_wf hs hidx

namespace Machine

/-! ### The check that fails, by its code -/

theorem failureOf_ne_illegalCommand {i : Instr} (hwf : i.wf = true) (s : State) :
    failureOf i s ≠ some .illegalCommand := by
  cases i with
  | mtLdw idx op | mtLdu idx op | mtRdw idx =>
    have hidx : idx.toNat < 624 := (indexLegal_iff idx).mp hwf
    simp [failureOf, hidx]
  | _ => simp [failureOf]

/-- R106. -/
theorem failureOf_eq_notReady_iff (i : Instr) (s : State) :
    failureOf i s = some .notReady ↔
      (i = .lcgNext ∧ s.lcgRdy = false) ∨ ((i = .mtTwist ∨ i = .mtNext) ∧ s.mtRdy = false) := by
  cases i with
  | mtLdw idx op | mtLdu idx op =>
    by_cases hidx : idx.toNat < 624 <;> simp [failureOf, hidx]
  | _ => simp [failureOf]

/-- R104, for a command whose index is legal: an illegal index is reported first (R108). -/
theorem failureOf_eq_invalidParameters_iff {i : Instr} (hwf : i.wf = true) (s : State) :
    failureOf i s = some .invalidParameters ↔
      (∃ op, i = .lcgInit op ∧ (s.lcgM = 0 ∨ s.lcgM.toNat ≤ op.toNat)) ∨
      (∃ op, 2 ^ 32 ≤ op.toNat ∧ (i = .mtSeed op ∨ (∃ idx, i = .mtLdw idx op) ∨ (∃ idx, i = .mtLdu idx op) ∨
        i = .tmpTemper op ∨ i = .tmpUntemper op)) ∨
      ∃ op, i = .mtLdi op ∧ 624 < op.toNat := by
  cases i with
  | mtLdw idx op | mtLdu idx op =>
    have hidx : idx.toNat < 624 := (indexLegal_iff idx).mp hwf
    simp [failureOf, hidx]
  | lcgInit op => simp [failureOf, or_iff_not_imp_left]
  | _ => simp [failureOf]

/-! ### What the response of an answered command says -/

section Answer

variable {i : Instr} {c : Command} {s t : State} {r : Response}

theorem failed_exec_changes_nothing (h : exec i s = .next t) (hr : t.rsp = some r) (hst : r.st ≠ 0) :
    r.rv = 0 ∧ t = { s with rsp := some r } := by
  rcases exec_answered h with ⟨k, -, rfl⟩ | ⟨-, rv, rfl⟩ <;> obtain rfl := Option.some.inj hr
  · exact ⟨rfl, rfl⟩
  · exact absurd rfl hst

theorem exec_status_iff {k : Status} (hk : k ≠ .ok) (h : exec i s = .next t) (hr : t.rsp = some r) :
    r.st = k.code ↔ failureOf i s = some k := by
  rcases exec_answered h with ⟨k', hk', rfl⟩ | ⟨hnone, rv, rfl⟩ <;> obtain rfl := Option.some.inj hr
  · rw [hk', Option.some.injEq]
    exact ⟨Status.code_injective, congrArg Status.code⟩
  · rw [hnone]
    exact iff_of_false (fun h => hk (Status.code_eq_zero_iff.mp h.symm)) (Option.some_ne_none k).symm

/-- An illegal word is refused by the decoder, and every other word is executed (R43). -/
theorem execute_next_cases (h : execute c s = .next t) :
    (illegalWord c.cw ∧ (∃ e, decode c = .error e) ∧ t = { s with rsp := some ⟨6, 0⟩ }) ∨
      ∃ i, ¬illegalWord c.cw ∧ decode c = .ok i ∧ exec i s = .next t := by
  rcases hd : decode c with e | i
  · refine .inl ⟨(illegalWord_iff_decode_error c).mpr ⟨e, hd⟩, ⟨e, rfl⟩, ?_⟩
    exact raise_next_iff.mp ((execute_of_error hd s).symm.trans h)
  · refine .inr ⟨i, fun hill => ?_, rfl, (execute_of_ok hd s).symm.trans h⟩
    obtain ⟨e, he⟩ := (illegalWord_iff_decode_error c).mp hill
    cases hd.symm.trans he

end Answer

/-- Settles O16: an illegal word is refused before anything is executed, and an executed command that fails has
stopped at a check. -/
theorem failedCommandsChangeNothing : Obligations.FailedCommandsChangeNothing := by
  unfold Obligations.FailedCommandsChangeNothing
  intro c s t r h hr hst
  rcases execute_next_cases h with ⟨-, -, rfl⟩ | ⟨i, -, -, hexec⟩
  · obtain rfl := Option.some.inj hr
    exact ⟨rfl, rfl⟩
  · exact failed_exec_changes_nothing hexec hr hst

/-- Settles O17: an illegal word has the code 6 and decodes to no command; the code of any other word is that of the
check its command fails. -/
theorem failureCausesAreExact : Obligations.FailureCausesAreExact := by
  unfold Obligations.FailureCausesAreExact
  intro c s t r h hr
  rcases execute_next_cases h with ⟨hill, ⟨e, he⟩, rfl⟩ | ⟨i, hlegal, hd, hexec⟩
  · obtain rfl := Option.some.inj hr
    simp [he, hill]
  · have hwf : i.wf = true := decode_wf hd
    simp only [hd, Except.ok.injEq]
    refine ⟨iff_of_false (fun h6 => ?_) hlegal, ?_, ?_⟩
    · exact failureOf_ne_illegalCommand hwf s ((exec_status_iff (by decide) hexec hr).mp h6)
    · exact (exec_status_iff (k := .notReady) (by decide) hexec hr).trans (failureOf_eq_notReady_iff i s)
    · exact (exec_status_iff (k := .invalidParameters) (by decide) hexec hr).trans
        (failureOf_eq_invalidParameters_iff hwf s)

end Machine
end Sys2Proof

/-! Reset (spec/70_reset_and_hazards.md R116): the step that applies `rst`, and the words it leaves. -/

namespace Sys2Proof.Machine

theorem step_of_reset {s : State} {rest : List HostEvent} (h : s.host = .reset :: rest) :
    step s = .next (applyReset { s with host := rest }) := by
  simp [step, h, hostEvent]

/-- `n` is the number of the reset, which picks the fresh `MT_W_RESET` (R117). -/
theorem memRead_of_mtWordsAfterReset {s : State} {n : Nat} {i : Index} (hw : s.mtW = Config.mtWordsAfterReset n)
    (hi : i.toNat < 624) : memRead i s = some (Config.mtWReset n i.toNat) := by
  simp only [memRead_of_lt s hi, hw, mtWordsAfterReset_getElem n _ hi]

/-- Settles O1: the step is `applyReset`, whose fields are those of `State.reset` but for the words, and both arrays
are the tabulated parameter. -/
theorem resetGivesTheResetValues : Obligations.ResetGivesTheResetValues := by
  unfold Obligations.ResetGivesTheResetValues
  intro s rest h
  refine ⟨_, step_of_reset h, fun u hu => ?_, fun i hi => memRead_of_mtWordsAfterReset (applyReset_mtW _) hi,
    fun i hi => memRead_of_mtWordsAfterReset reset_mtW hi⟩
  rcases List.mem_pair.mp hu with rfl | rfl
  · simp
  · simp

end Sys2Proof.Machine

/-! The encoder and the decoder (spec/30_encoding.md sections 1, 2 and 5): each reads the fields the other wrote. -/

namespace Sys2Proof

/-! ### The opcode map in both directions (R42) -/

/-- The row of an instruction's opcode is the instruction's own. -/
theorem select_encode_fields (i : Instr) : select i.opcode i.idxField i.operand = some (i.format, i) := by
  cases i <;> rfl

theorem encode_opc (i : Instr) : (encode i).opc = i.opcode := packWord_opc _ _ _

theorem encode_rsv (i : Instr) : (encode i).rsv = 0 := packWord_rsv _ _ _

theorem encode_idx (i : Instr) : (encode i).idx = i.idxField := packWord_idx _ _ _

/-- The index field is zero in format N and addresses a word in format X (R38, R39). -/
theorem idxField_of_wf {i : Instr} (h : i.wf = true) :
    (i.format = .N ∧ i.idxField = 0) ∨ (i.format = .X ∧ i.idxField.toNat < 624) := by
  cases i with
  | mtLdw idx op | mtLdu idx op | mtRdw idx => exact .inr ⟨rfl, (indexLegal_iff idx).mp h⟩
  | _ => exact .inl ⟨rfl, rfl⟩

theorem decode_encode {i : Instr} (h : i.wf = true) : decode (encode i) = .ok i := by
  refine decode_of_fields (f := i.format) ?_ (encode_rsv i) ?_
  · rw [encode_opc, encode_idx]
    exact select_encode_fields i
  · rw [encode_idx]
    exact idxField_of_wf h

/-- Settles O6: the encoded fields select the instruction's own row, and the index check of its format passes. -/
theorem decodeOfEncodeIsTheCommand : Obligations.DecodeOfEncodeIsTheCommand := by
  unfold Obligations.DecodeOfEncodeIsTheCommand
  exact fun i h => decode_encode h

/-- The opcode map passes the fields it read on to the instruction, but for an ignored operand (R40). -/
theorem select_fields {opc : BitVec 8} {idx : Index} {op : Word64} {f : Format} {i : Instr}
    (h : select opc idx op = some (f, i)) :
    i.opcode.toNat = opc.toNat ∧ i.idxField = (if f = .X then idx else 0) ∧
      i.operand = if Machine.operandClass i = .none then 0 else op := by
  unfold select at h
  split at h <;> cases h <;> rename_i hopc <;> exact ⟨hopc.symm, rfl, rfl⟩

/-- A command word with a zero `RSV` consists of its two other fields (R37). -/
theorem packWord_of_fields {c : Command} (hrsv : c.rsv = 0) : packWord c.opc c.idx = c.cw := by
  apply BitVec.eq_of_toNat_eq
  have hzero : c.cw.toNat / 2 ^ 10 % 2 ^ 14 = 0 := by rw [← c.rsv_toNat, hrsv]; rfl
  rw [packWord_toNat, c.opc_toNat, c.idx_toNat]
  omega

/-- Settles O7: the decoded instruction carries the fields of the word, and a word that decodes has no others. -/
theorem encodeOfDecodeIsTheWord : Obligations.EncodeOfDecodeIsTheWord := by
  unfold Obligations.EncodeOfDecodeIsTheWord
  intro c i h
  obtain ⟨f, hs, hrsv, hformat⟩ := decode_ok_inv h
  obtain ⟨hopc, hidx, hop⟩ := select_fields hs
  have hidx' : i.idxField = c.idx := by
    rcases hformat with ⟨rfl, hzero⟩ | ⟨rfl, -⟩
    · exact hidx.trans hzero.symm
    · exact hidx
  refine ⟨decode_wf h, ?_, hop⟩
  calc packWord i.opcode i.idxField = packWord c.opc c.idx := by rw [BitVec.eq_of_toNat_eq hopc, hidx']
    _ = c.cw := packWord_of_fields hrsv

/-! ### The command word as a number -/

theorem encode_cw_toNat (i : Instr) : (encode i).cw.toNat = i.opcode.toNat * 2 ^ 24 + i.idxField.toNat :=
  packWord_toNat _ _

theorem idxField_of_formatN {i : Instr} (h : i.format = .N) : i.idxField = 0 := by
  cases i with
  | mtLdw idx op | mtLdu idx op | mtRdw idx => cases h
  | _ => rfl

theorem format_eq_X_iff (i : Instr) :
    i.format = .X ↔ (∃ idx op, i = .mtLdw idx op) ∨ (∃ idx op, i = .mtLdu idx op) ∨ ∃ idx, i = .mtRdw idx := by
  cases i <;> simp [Instr.format]

/-- R41: `OPC[7:4]` is the unit. -/
theorem opcode_div_sixteen (i : Instr) : i.opcode.toNat / 16 = i.blockUnit.number.toNat := by
  cases i <;> simp [Instr.opcode, Instr.blockUnit, BlockUnit.number]

/-- Settles O8: the word is the packed fields, and the index field of format N is zero. -/
theorem commandWordIsOpcodeAndIndex : Obligations.CommandWordIsOpcodeAndIndex := by
  unfold Obligations.CommandWordIsOpcodeAndIndex
  intro i
  refine ⟨encode_cw_toNat i, fun hN => ?_, format_eq_X_iff i, opcode_div_sixteen i⟩
  rw [encode_cw_toNat, idxField_of_formatN hN]
  exact Nat.add_zero _

/-- Settles O10: the decoder evaluated on each of the ten words. -/
theorem writtenOutWordsDecode : Obligations.WrittenOutWordsDecode := by
  unfold Obligations.WrittenOutWordsDecode
  exact ⟨by decide, by decide, by decide, by decide, by decide, by decide, by decide, by decide, by decide, by decide⟩

end Sys2Proof

/-! ### Assembler lines (R48) -/

namespace Sys2Proof.Machine

theorem opLiteral_toNat (op : Word64) (f : Word64 → Instr) : opLiteral op.toNat f = some (f op) := by
  rw [opLiteral, if_pos op.isLt, BitVec.ofNat_toNat, BitVec.setWidth_eq]

theorem idxLiteral_toNat (idx : Index) (f : Index → Instr) : idxLiteral idx.toNat f = some (f idx) := by
  rw [idxLiteral, if_pos idx.isLt, BitVec.ofNat_toNat, BitVec.setWidth_eq]

/-- A line with an index and an operand, as `AsmLine.parse` reads it. -/
theorem indexAndOpLiteral_toNat (idx : Index) (op : Word64) (f : Index → Word64 → Instr) :
    (if idx.toNat < 2 ^ 10 then opLiteral op.toNat (f (BitVec.ofNat 10 idx.toNat)) else none) =
      some (f idx op) := by
  rw [if_pos idx.isLt, opLiteral_toNat, BitVec.ofNat_toNat, BitVec.setWidth_eq]

/-- The literals of a line that writes a command fit their fields and read as what they were. -/
theorem parse_toLine (i : Instr) : (toLine i).parse = some i := by
  cases i with
  | sysRdstat | lcgRdm | lcgRda | lcgRdc | lcgRdx | lcgNext | mtRdi | mtTwist | mtNext => rfl
  | lcgLdm op | lcgLda op | lcgLdc op | lcgInit op | mtSeed op | mtLdi op | tmpTemper op | tmpUntemper op =>
    exact opLiteral_toNat op _
  | mtRdw idx => exact idxLiteral_toNat idx _
  | mtLdw idx op | mtLdu idx op => exact indexAndOpLiteral_toNat idx op _

/-- Settles O11: the line parses to the command, whatever its index and operand. -/
theorem assemblerLineAssemblesToTheEncoding : Obligations.AssemblerLineAssemblesToTheEncoding := by
  unfold Obligations.AssemblerLineAssemblesToTheEncoding
  intro i
  rw [AsmLine.assemble, parse_toLine, Option.map_some]

end Sys2Proof.Machine

/-! What a command answers, as one value: the state `answer i s`. Where the two faults of log entry 4 are ruled out
(`Defined`), `exec` gives it; invariants, frames and noninterference are facts about its three parts `failureOf`,
`effectOf` and `valueOf`. -/

namespace Sys2Proof.Machine

/-! ### The answer -/

/-- The value of a successful command's response. -/
def valueOf (i : Instr) (s : State) : Word64 :=
  match i with
  | .sysRdstat => statusView s
  | .lcgRdm => s.lcgM
  | .lcgRda => s.lcgA
  | .lcgRdc => s.lcgC
  | .lcgRdx => s.lcgX
  | .lcgNext => lcgStep s.lcgM s.lcgA s.lcgC s.lcgX
  | .mtRdw idx => (wordAt s.mtW idx.toNat).zeroExtend 64
  | .mtRdi => s.mtIdx.zeroExtend 64
  | .mtNext => (temper (wordAt (refillIfSpent s).mtW (refillIfSpent s).mtIdx.toNat)).zeroExtend 64
  | .tmpTemper op => (temper (op.setWidth 32)).zeroExtend 64
  | .tmpUntemper op => (untemper (op.setWidth 32)).zeroExtend 64
  | .lcgLdm _ | .lcgLda _ | .lcgLdc _ | .lcgInit _ | .mtSeed _ | .mtLdw _ _ | .mtLdu _ _ | .mtLdi _ | .mtTwist => 0

/-- `s` with the response of a failed check, or `u` with that of a command whose checks passed. -/
def answerWith (failure : Option Status) (s u : State) (rv : Word64) : State :=
  match failure with
  | some k => { s with rsp := some ⟨k.code, 0⟩ }
  | none => { u with rsp := some ⟨0, rv⟩ }

/-- The state in which command `i` leaves a unit in state `s`. -/
def answer (i : Instr) (s : State) : State := answerWith (failureOf i s) s (effectOf i s) (valueOf i s)

/-- The two situations in which the model stops by name do not hold (log entry 4). -/
def Defined (i : Instr) (s : State) : Prop :=
  (i = .lcgNext → s.lcgRdy = true → s.lcgM ≠ 0) ∧ (i = .mtNext → s.mtRdy = true → s.mtIdx.toNat ≤ 624)

/-- One check in front of a body. -/
theorem check_eq {p : Prop} [Decidable p] {body : Result} {k : Status} {failure : Option Status} {s u : State}
    {rv : Word64} (hbody : p → body = .next (answerWith failure s u rv)) :
    (if p then body else raise k s) = .next (answerWith (if p then failure else some k) s u rv) := by
  by_cases hp : p
  · rw [if_pos hp, if_pos hp, hbody hp]
  · rw [if_neg hp, if_neg hp]
    rfl

/-- All that a command does where it is defined. -/
theorem exec_eq_answer {i : Instr} {s : State} (h : Defined i s) : exec i s = .next (answer i s) := by
  obtain ⟨hlcg, hmt⟩ := h
  cases i with
  | sysRdstat | lcgRdm | lcgRda | lcgRdc | lcgRdx | mtRdi => rfl
  | lcgLdm op | lcgLda op | lcgLdc op => rfl
  | lcgInit op => exact (execLcgInit_eq op s).trans (check_eq fun _ => rfl)
  | lcgNext => exact check_eq fun hready => if_neg (hlcg rfl hready)
  | mtSeed op | tmpTemper op | tmpUntemper op => exact (withU32_eq op s _).trans (check_eq fun _ => rfl)
  | mtLdw idx op | mtLdu idx op =>
    refine (whenIndexLegal_eq idx s _).trans (check_eq fun _ => ?_)
    exact (withU32_eq op s _).trans (check_eq fun _ => rfl)
  | mtLdi op => exact (withIdx625_eq op s _).trans (check_eq fun _ => rfl)
  | mtRdw idx => exact (execMtRdw_eq idx s).trans (check_eq fun _ => rfl)
  | mtTwist => exact check_eq fun _ => rfl
  | mtNext =>
    refine check_eq fun hready => ?_
    exact (whenMtReady_of_ready hready _).symm.trans (execMtNext_eq hready (hmt rfl hready))

/-- A command that is answered is defined. -/
theorem defined_of_exec {i : Instr} {s t : State} (h : exec i s = .next t) : Defined i s := by
  constructor
  · rintro rfl hready hmod
    rw [exec, execLcgNext, whenLcgReady_eq, if_pos hready, if_pos hmod] at h
    cases h
  · rintro rfl hready
    by_contra hidx
    have hspent : s.mtIdx ≠ 624 := fun e => hidx (e ▸ by decide)
    simp only [exec, execMtNext, whenMtReady_of_ready hready, refillIfSpent_of_not_spent hspent,
      memRead_of_ge s (Nat.le_of_not_le hidx)] at h
    cases h

theorem exec_next_iff {i : Instr} {s t : State} : exec i s = .next t ↔ Defined i s ∧ t = answer i s := by
  refine ⟨fun h => ⟨defined_of_exec h, ?_⟩, fun ⟨hdef, ht⟩ => ht ▸ exec_eq_answer hdef⟩
  exact Host.Outcome.next.inj (h.symm.trans (exec_eq_answer (defined_of_exec h)))

/-! ### What every command leaves (spec/10_state.md section 6) -/

theorem refillIfSpent_eq (s : State) :
    refillIfSpent s = { s with mtW := if s.mtIdx = 624 then twist s.mtW else s.mtW,
                               mtIdx := if s.mtIdx = 624 then 0 else s.mtIdx } := by
  by_cases h : s.mtIdx = 624
  · rw [refillIfSpent_of_spent h, if_pos h, if_pos h, refill]
  · rw [refillIfSpent_of_not_spent h, if_neg h, if_neg h]

/-- No command touches the channels or the host's side; the response comes after its effect. -/
theorem effectOf_channels (i : Instr) (s : State) :
    (effectOf i s).host = s.host ∧ (effectOf i s).taken = s.taken ∧ (effectOf i s).resets = s.resets := by
  cases i with
  | mtSeed _ | mtNext => simp [effectOf, refillIfSpent_eq]
  | _ => exact ⟨rfl, rfl, rfl⟩

section
variable {i : Instr} {c : Command} {s t : State}

/-- Every part of the state but the response is the one before the command or the one its effect gives. -/
theorem exec_part {α : Type} (f : State → α) (hf : ∀ u r, f { u with rsp := r } = f u) (h : exec i s = .next t) :
    f t = f s ∨ f t = f (effectOf i s) := by
  rcases exec_answered h with ⟨k, -, rfl⟩ | ⟨-, rv, rfl⟩
  · exact .inl (hf _ _)
  · exact .inr (hf _ _)

theorem exec_part_kept {α : Type} (f : State → α) (hf : ∀ u r, f { u with rsp := r } = f u)
    (h : exec i s = .next t) (heffect : f (effectOf i s) = f s) : f t = f s := by
  rcases exec_part f hf h with he | he
  · exact he
  · exact he.trans heffect

/-- A part that changed has the value that the effect wrote. -/
theorem exec_part_written {α : Type} (f : State → α) (hf : ∀ u r, f { u with rsp := r } = f u) (Q : α → Prop)
    (h : exec i s = .next t) (heffect : f (effectOf i s) = f s ∨ Q (f (effectOf i s))) (hne : f t ≠ f s) :
    Q (f t) := by
  have he : f t = f (effectOf i s) := (exec_part f hf h).resolve_left hne
  rw [he] at hne ⊢
  exact heffect.resolve_left hne

theorem exec_responds (h : exec i s = .next t) : ∃ r, t.rsp = some r := by
  rcases exec_answered h with ⟨k, -, rfl⟩ | ⟨-, rv, rfl⟩
  · exact ⟨_, rfl⟩
  · exact ⟨_, rfl⟩

theorem exec_channels (h : exec i s = .next t) : t.host = s.host ∧ t.taken = s.taken ∧ t.resets = s.resets := by
  obtain ⟨hhost, htaken, hresets⟩ := effectOf_channels i s
  exact ⟨exec_part_kept State.host (fun _ _ => rfl) h hhost, exec_part_kept State.taken (fun _ _ => rfl) h htaken,
    exec_part_kept State.resets (fun _ _ => rfl) h hresets⟩

theorem execute_channels (h : execute c s = .next t) :
    t.host = s.host ∧ t.taken = s.taken ∧ t.resets = s.resets := by
  rcases execute_next_cases h with ⟨-, -, rfl⟩ | ⟨i, -, -, hexec⟩
  · exact ⟨rfl, rfl, rfl⟩
  · exact exec_channels hexec

end

section
variable (i : Instr) (s : State)

/-- Each of the three parameters is written by its own load alone. -/
theorem effectOf_parameters :
    ((effectOf i s).lcgM = s.lcgM ∨ ∃ op, i = .lcgLdm op ∧ (effectOf i s).lcgM = op) ∧
    ((effectOf i s).lcgA = s.lcgA ∨ ∃ op, i = .lcgLda op ∧ (effectOf i s).lcgA = op) ∧
    ((effectOf i s).lcgC = s.lcgC ∨ ∃ op, i = .lcgLdc op ∧ (effectOf i s).lcgC = op) := by
  cases i with
  | lcgLdm op => exact ⟨.inr ⟨op, rfl, rfl⟩, .inl rfl, .inl rfl⟩
  | lcgLda op => exact ⟨.inl rfl, .inr ⟨op, rfl, rfl⟩, .inl rfl⟩
  | lcgLdc op => exact ⟨.inl rfl, .inl rfl, .inr ⟨op, rfl, rfl⟩⟩
  | mtSeed _ | mtNext => simp [effectOf, refillIfSpent_eq]
  | _ => exact ⟨.inl rfl, .inl rfl, .inl rfl⟩

theorem effectOf_lcgX :
    (effectOf i s).lcgX = s.lcgX ∨ (∃ op, i = .lcgInit op ∧ (effectOf i s).lcgX = op) ∨ i = .lcgNext := by
  cases i with
  | lcgInit op => exact .inr (.inl ⟨op, rfl, rfl⟩)
  | lcgNext => exact .inr (.inr rfl)
  | mtSeed _ | mtNext => simp [effectOf, refillIfSpent_eq]
  | _ => exact .inl rfl

theorem effectOf_mtIdx :
    (effectOf i s).mtIdx = s.mtIdx ∨ (∃ op, i = .mtSeed op ∨ i = .mtLdi op) ∨ i = .mtTwist ∨ i = .mtNext := by
  cases i with
  | mtSeed op => exact .inr (.inl ⟨op, .inl rfl⟩)
  | mtLdi op => exact .inr (.inl ⟨op, .inr rfl⟩)
  | mtTwist => exact .inr (.inr (.inl rfl))
  | mtNext => exact .inr (.inr (.inr rfl))
  | _ => exact .inl rfl

end

/-- Settles O19: a register that an answered command changed has the value of `effectOf`, which writes it in the named
commands only; the flags are those of `exec_lcgRdy_iff` and `exec_mtRdy_iff`. -/
theorem onlyTheNamedCommandsWriteEachRegister : Obligations.OnlyTheNamedCommandsWriteEachRegister := by
  unfold Obligations.OnlyTheNamedCommandsWriteEachRegister
  intro i s t h
  obtain ⟨r, hr⟩ := exec_responds h
  have hlcg := exec_lcgRdy_iff h hr
  have hmt := exec_mtRdy_iff h hr
  obtain ⟨hm, ha, hc⟩ := effectOf_parameters i s
  refine ⟨exec_part_written State.lcgM (fun _ _ => rfl) (fun v => ∃ op, i = .lcgLdm op ∧ v = op) h hm,
    exec_part_written State.lcgA (fun _ _ => rfl) (fun v => ∃ op, i = .lcgLda op ∧ v = op) h ha,
    exec_part_written State.lcgC (fun _ _ => rfl) (fun v => ∃ op, i = .lcgLdc op ∧ v = op) h hc,
    exec_part_written State.lcgX (fun _ _ => rfl) (fun v => (∃ op, i = .lcgInit op ∧ v = op) ∨ i = .lcgNext) h
      (effectOf_lcgX i s),
    fun hs ht => ?_, fun hs ht => ?_,
    exec_part_written State.mtIdx (fun _ _ => rfl) (fun _ => _) h (effectOf_mtIdx i s),
    fun hs => hmt.mpr (.inl hs), fun hs ht => ?_, hr ▸ Option.some_ne_none r, exec_channels h⟩
  · rcases hlcg.mp ht with ⟨-, hinit⟩ | ⟨hs', -⟩
    · exact hinit
    · exact absurd (hs.symm.trans hs') Bool.false_ne_true
  · by_contra hno
    have hkeeps := hlcg.mpr (.inr ⟨hs, by simpa [not_or] using hno⟩)
    exact absurd (ht.symm.trans hkeeps) Bool.false_ne_true
  · rcases hmt.mp ht with hs' | ⟨-, hloads⟩
    · exact absurd (hs.symm.trans hs') Bool.false_ne_true
    · exact hloads

theorem effectOf_mtW_kept {i : Instr} {s : State}
    (hstore : ∀ op idx, i ≠ .mtSeed op ∧ i ≠ .mtLdw idx op ∧ i ≠ .mtLdu idx op) (htwist : i ≠ .mtTwist)
    (hnext : i = .mtNext → s.mtIdx ≠ 624) : (effectOf i s).mtW = s.mtW := by
  cases i with
  | mtSeed op => exact absurd rfl (hstore op 0).1
  | mtLdw idx op => exact absurd rfl (hstore op idx).2.1
  | mtLdu idx op => exact absurd rfl (hstore op idx).2.2
  | mtTwist => exact absurd rfl htwist
  | mtNext => exact (congrArg State.mtW (refillIfSpent_of_not_spent (hnext rfl)) :)
  | _ => rfl

/-- Settles O20: the effect of such a command keeps the array, which is all that `memRead` looks at. -/
theorem commandsThatStoreNoWordKeepTheWords : Obligations.CommandsThatStoreNoWordKeepTheWords := by
  unfold Obligations.CommandsThatStoreNoWordKeepTheWords
  intro i s t h hstore htwist hnext j
  exact exec_part_kept (memRead j) (fun _ _ => rfl) h
    (congrArg (fun w : MtWords => w[j.toNat]?) (effectOf_mtW_kept hstore htwist hnext))

end Sys2Proof.Machine

/-! The invariant of the machine (spec/10_state.md R13, R16, spec/60_exceptions.md R103, R113): every step keeps it, and
under it every command is answered. -/

namespace Sys2Proof.Machine

/-! ### One check -/

section
variable {p : Prop} [Decidable p] {failure : Option Status} {k k' : Status}

theorem check_passed (h : (if p then failure else some k) = none) : p := by
  by_contra hp
  rw [if_neg hp] at h
  cases h

theorem check_failed (h : (if p then failure else some k) = some k') : failure = some k' ∨ k' = k := by
  split_ifs at h
  · exact .inl h
  · exact .inr (Option.some.inj h).symm

end

/-! ### The two units -/

/-- R13: `LCG.INIT` checks its operand, and the step's remainder lies below the modulus. -/
theorem effectOf_lcgInv {i : Instr} {s : State} (h : s.lcgInv) (hok : failureOf i s = none) :
    (effectOf i s).lcgInv := by
  cases i with
  | lcgInit op => exact fun _ => check_passed hok
  | lcgNext => exact fun hready => ⟨(h hready).1, lcgStep_lt (h hready).1⟩
  | lcgLdm op | lcgLda op | lcgLdc op => exact fun hready => absurd hready Bool.false_ne_true
  | mtSeed op | mtNext => simpa [effectOf, refillIfSpent_eq, State.lcgInv] using h
  | _ => exact h

/-- R16: `MT.LDI` checks its operand, and after the twist of a spent array the index names a word. -/
theorem effectOf_mtInv {i : Instr} {s : State} (h : s.mtInv) (hok : failureOf i s = none) : (effectOf i s).mtInv := by
  cases i with
  | mtSeed op => simp [effectOf]
  | mtLdi op =>
    have hop : op.toNat ≤ 624 := check_passed hok
    exact (BitVec.toNat_setWidth 10 op).trans_le ((Nat.mod_le _ _).trans hop)
  | mtTwist => exact Nat.zero_le _
  | mtNext =>
    have hlt : (refillIfSpent s).mtIdx.toNat < 624 := refillIfSpent_mtIdx_lt h
    change ((refillIfSpent s).mtIdx + 1).toNat ≤ 624
    bv_omega
  | _ => exact h

/-! ### The responses -/

theorem failureOf_kind {i : Instr} {s : State} {k : Status} (h : failureOf i s = some k) :
    k = .invalidParameters ∨ k = .illegalCommand ∨ k = .notReady := by
  cases i with
  | lcgInit _ | mtSeed _ | mtLdi _ | tmpTemper _ | tmpUntemper _ => exact .inl ((check_failed h).resolve_left nofun)
  | lcgNext | mtTwist | mtNext => exact .inr (.inr ((check_failed h).resolve_left nofun))
  | mtRdw _ => exact .inr (.inl ((check_failed h).resolve_left nofun))
  | mtLdw _ _ | mtLdu _ _ =>
    rcases check_failed h with h | h
    · exact .inl ((check_failed h).resolve_left nofun)
    · exact .inr (.inl h)
  | _ => cases h

theorem wf_of_failureOf {i : Instr} {s : State} {k : Status} (h : failureOf i s = some k) :
    (⟨k.code, 0⟩ : Response).wf := by
  rcases failureOf_kind h with rfl | rfl | rfl <;> decide

theorem wf_of_ok (rv : Word64) : (⟨0, rv⟩ : Response).wf := ⟨.inl rfl, fun h => absurd rfl h⟩

/-! ### Keeping the invariant -/

section
variable {i : Instr} {c : Command} {s t : State}

theorem inv_with_response {r : Response} (h : s.Inv) (hr : r.wf) : ({ s with rsp := some r } : State).Inv := by
  obtain ⟨hlcg, hmt, -, htaken⟩ := h
  exact ⟨hlcg, hmt, fun _ hmem => Option.mem_some.mp hmem ▸ hr, htaken⟩

theorem exec_keeps_inv (hinv : s.Inv) (h : exec i s = .next t) : t.Inv := by
  rcases exec_answered h with ⟨k, hk, rfl⟩ | ⟨hok, rv, rfl⟩
  · exact inv_with_response hinv (wf_of_failureOf hk)
  · obtain ⟨hlcg, hmt, -, htaken⟩ := hinv
    refine ⟨effectOf_lcgInv hlcg hok, effectOf_mtInv hmt hok, fun _ hmem => Option.mem_some.mp hmem ▸ wf_of_ok rv, ?_⟩
    obtain ⟨-, hkept, -⟩ := effectOf_channels i s
    exact hkept.symm ▸ htaken

theorem execute_keeps_inv (hinv : s.Inv) (h : execute c s = .next t) : t.Inv := by
  rcases execute_next_cases h with ⟨-, -, rfl⟩ | ⟨i, -, -, hexec⟩
  · exact inv_with_response hinv (by decide)
  · exact exec_keeps_inv hinv hexec

theorem takeResponse_keeps_inv (hinv : s.Inv) (h : takeResponse s = .next t) : t.Inv := by
  obtain ⟨hlcg, hmt, hpending, htaken⟩ := hinv
  obtain ⟨r, hr, rfl⟩ := takeResponse_next_iff.mp h
  refine ⟨hlcg, hmt, by simp, fun a ha => ?_⟩
  rcases List.mem_append.mp ha with ha | ha
  · exact htaken a ha
  · exact List.mem_singleton.mp ha ▸ hpending r hr

theorem applyReset_keeps_inv (hinv : s.Inv) : (applyReset s).Inv := by
  obtain ⟨-, -, -, htaken⟩ := hinv
  exact ⟨fun h => absurd h Bool.false_ne_true, le_rfl, by simp, htaken⟩

theorem step_keeps_inv (hinv : s.Inv) (h : step s = .next t) : t.Inv := by
  rcases step_cases s with ⟨-, hs⟩ | ⟨c, rest, -, hs⟩ | ⟨rest, -, hs⟩ | ⟨rest, -, hs⟩ <;> rw [hs] at h
  · exact Host.Outcome.next.inj h ▸ hinv
  · rw [issue_eq] at h
    split_ifs at h
    exact execute_keeps_inv (s := { s with host := rest }) hinv h
  · exact takeResponse_keeps_inv (s := { s with host := rest }) hinv h
  · exact Host.Outcome.next.inj h ▸ applyReset_keeps_inv (s := { s with host := rest }) hinv

end

/-- Settles O13: by what a step can do; an executed command writes only the response when a check fails, and `effectOf`
keeps the invariants of both units when none does. -/
theorem everyStepKeepsTheInvariant : Obligations.EveryStepKeepsTheInvariant := by
  unfold Obligations.EveryStepKeepsTheInvariant
  exact fun s t hinv h => step_keeps_inv hinv h

theorem resetWith_inv (events : List HostEvent) : (State.resetWith events).Inv :=
  ⟨fun h => absurd h Bool.false_ne_true, le_rfl, by simp, by simp⟩

/-- Settles O12: no unit is constructed, the index is 624 and both channels are empty. -/
theorem invariantHoldsAtReset : Obligations.InvariantHoldsAtReset := by
  unfold Obligations.InvariantHoldsAtReset
  exact resetWith_inv

/-! ### No fault under the invariant (R113) -/

section
variable {s : State}

theorem defined_of_inv (hinv : s.Inv) (i : Instr) : Defined i s := by
  obtain ⟨hlcg, hmt, -⟩ := hinv
  exact ⟨fun _ hready => (hlcg hready).1, fun _ _ => hmt⟩

theorem execute_answers (hinv : s.Inv) (c : Command) :
    ∃ t r, execute c s = .next t ∧ t.rsp = some r := by
  rcases hd : decode c with e | i
  · exact ⟨_, _, execute_of_error hd s, rfl⟩
  · have hexec : exec i s = .next (answer i s) := exec_eq_answer (defined_of_inv hinv i)
    obtain ⟨r, hr⟩ := exec_responds hexec
    exact ⟨_, r, (execute_of_ok hd s).trans hexec, hr⟩

theorem step_ne_fault (hinv : s.Inv) (f : Fault) : step s ≠ .fault f := by
  rcases step_cases s with ⟨-, hs⟩ | ⟨c, rest, -, hs⟩ | ⟨rest, -, hs⟩ | ⟨rest, -, hs⟩ <;> rw [hs]
  · simp
  · obtain ⟨t, r, ht, -⟩ := execute_answers (s := { s with host := rest }) hinv c
    rw [issue_eq, ht]
    split_ifs <;> simp
  · exact takeResponse_ne_fault
  · simp

end

/-- Settles O15: the command is answered, and the answer leaves the invariant, which names the codes. -/
theorem everyCommandIsAnswered : Obligations.EveryCommandIsAnswered := by
  unfold Obligations.EveryCommandIsAnswered
  intro s c hinv
  obtain ⟨t, r, ht, hr⟩ := execute_answers hinv c
  obtain ⟨-, -, hpending, -⟩ := execute_keeps_inv hinv ht
  exact ⟨t, r, ht, hr, (hpending r hr).1⟩

/-- Settles O60: of the four things a step can be, only an issued command could fault, and it is answered. -/
theorem noStepFaultsUnderTheInvariant : Obligations.NoStepFaultsUnderTheInvariant := by
  unfold Obligations.NoStepFaultsUnderTheInvariant
  exact fun s f hinv => step_ne_fault hinv f

/-! ### Reachable states -/

theorem run_succ_next {M : Host.Core} {n : Nat} {s t : M.State} (h : M.run (n + 1) s = .next t) :
    ∃ u, M.step s = .next u ∧ M.run n u = .next t := by
  rw [Host.Core.run] at h
  split at h
  · next u hu => exact ⟨u, hu, h⟩
  · cases h
  · cases h

/-- What every step keeps, every run keeps. -/
theorem run_keeps_inv {n : Nat} {s t : State} (hinv : s.Inv) (h : Host.Core.run core n s = .next t) : t.Inv := by
  induction n generalizing s with
  | zero => exact Host.Outcome.next.inj h ▸ hinv
  | succ n ih =>
    obtain ⟨u, hu, hrun⟩ := run_succ_next h
    exact ih (step_keeps_inv hinv hu) hrun

/-- Settles O14: the invariant holds at reset and along every run. -/
theorem reachableStatesMeetTheUnitInvariants : Obligations.ReachableStatesMeetTheUnitInvariants := by
  unfold Obligations.ReachableStatesMeetTheUnitInvariants
  rintro s ⟨events, n, hrun⟩
  have hinv : s.Inv := run_keeps_inv (resetWith_inv events) hrun
  have ⟨hlcg, hmt, _⟩ := hinv
  exact ⟨hlcg, hmt, step_ne_fault hinv⟩

end Sys2Proof.Machine

/-! What one command depends on: the host's record and the pending response do not matter to it, nor does the other
engine (spec/10_state.md section 6, spec/60_exceptions.md R110, R114, spec/20_memory.md R29). -/

namespace Sys2Proof.Machine

/-! ### The host's record (R114) -/

section
variable (i : Instr) (s : State) (l : List Response)

theorem failureOf_with_taken : failureOf i { s with taken := l } = failureOf i s := by
  cases i <;> rfl

theorem valueOf_with_taken : valueOf i { s with taken := l } = valueOf i s := by
  cases i with
  | mtNext => simp only [valueOf, refillIfSpent_eq]
  | _ => rfl

theorem effectOf_with_taken : effectOf i { s with taken := l } = { effectOf i s with taken := l } := by
  cases i with
  | mtNext => simp only [effectOf, refillIfSpent_eq]
  | _ => rfl

theorem answer_with_taken : answer i { s with taken := l } = { answer i s with taken := l } := by
  rw [answer, failureOf_with_taken, valueOf_with_taken, effectOf_with_taken, answer]
  cases failureOf i s <;> rfl

end

section
variable {i : Instr} {c d : Command} {s t u : State} {r q : Response}

theorem exec_with_taken (h : exec i s = .next u) (l : List Response) :
    exec i { s with taken := l } = .next { u with taken := l } := by
  obtain ⟨hdef, rfl⟩ := exec_next_iff.mp h
  exact (exec_eq_answer (s := { s with taken := l }) hdef).trans (congrArg _ (answer_with_taken i s l))

theorem execute_with_taken (h : execute c s = .next u) (l : List Response) :
    execute c { s with taken := l } = .next { u with taken := l } := by
  rcases execute_next_cases h with ⟨-, ⟨e, he⟩, rfl⟩ | ⟨i, -, hd, hexec⟩
  · exact execute_of_error he _
  · exact (execute_of_ok hd _).trans (exec_with_taken hexec l)

/-- What a transaction did: the command was executed and its response taken. -/
theorem transact_next_inv (hidle : s.rsp = none) (h : transact c s = .next (u, q)) :
    ∃ v, execute c s = .next v ∧ v.rsp = some q ∧ u = { v with rsp := none, taken := s.taken ++ [q] } := by
  rw [transact, issue_eq, if_pos hidle] at h
  rcases hv : execute c s with v | f | e <;> rw [hv] at h
  · obtain ⟨-, htaken, -⟩ := execute_channels hv
    rcases hq : v.rsp with _ | r <;> simp only [hq] at h
    · cases h
    · obtain ⟨rfl, rfl⟩ := Prod.mk.inj (Host.Outcome.next.inj h)
      exact ⟨v, rfl, hq, by rw [htaken]⟩
  · cases h
  · cases h

theorem transact_with_taken (hidle : s.rsp = none) (h : transact d s = .next (u, q)) (l : List Response) :
    transact d { s with taken := l } = .next ({ u with taken := l ++ [q] }, q) := by
  obtain ⟨v, hv, hq, rfl⟩ := transact_next_inv hidle h
  exact transact_of_next (s := { s with taken := l }) hidle (execute_with_taken hv l) hq

/-- A command that failed leaves nothing but its entry in the record. -/
theorem failed_transact (hidle : s.rsp = none) (h : transact c s = .next (t, r)) (hr : r.st ≠ 0) :
    t = { s with taken := s.taken ++ [r] } := by
  obtain ⟨v, hv, hrsp, rfl⟩ := transact_next_inv hidle h
  obtain ⟨-, hsame⟩ := failedCommandsChangeNothing c s v r hv hrsp hr
  rw [hsame, ← hidle]

end

/-- Settles O18: the failed command left a longer record and nothing else, and no command reads the record. -/
theorem failuresAreNotSticky : Obligations.FailuresAreNotSticky := by
  unfold Obligations.FailuresAreNotSticky
  intro c d s t r u q hidle hfail hr hnext
  rw [failed_transact hidle hfail hr, transact_with_taken hidle hnext, List.append_assoc]
  rfl

/-! ### The two engines -/

/-- The registers of the LCG unit. -/
def lcgUnit (s : State) : Word64 × Word64 × Word64 × Word64 × Bool := (s.lcgM, s.lcgA, s.lcgC, s.lcgX, s.lcgRdy)

/-- The registers of the MT unit. -/
def mtUnit (s : State) : MtWords × Index × Bool := (s.mtW, s.mtIdx, s.mtRdy)

theorem lcgUnit_eq_iff {s t : State} : lcgUnit t = lcgUnit s ↔
    t.lcgM = s.lcgM ∧ t.lcgA = s.lcgA ∧ t.lcgC = s.lcgC ∧ t.lcgX = s.lcgX ∧ t.lcgRdy = s.lcgRdy := by
  simp only [lcgUnit, Prod.mk.injEq]

theorem mtUnit_eq_iff {s t : State} :
    mtUnit t = mtUnit s ↔ t.mtW = s.mtW ∧ t.mtIdx = s.mtIdx ∧ t.mtRdy = s.mtRdy := by
  simp only [mtUnit, Prod.mk.injEq]

section
variable {i : Instr} {s s' : State}

theorem effectOf_mtUnit (hi : i.blockUnit = .lcg) (s : State) : mtUnit (effectOf i s) = mtUnit s := by
  cases i with
  | sysRdstat | mtSeed _ | mtLdw _ _ | mtLdu _ _ | mtLdi _ | mtRdw _ | mtRdi | mtTwist | mtNext | tmpTemper _
  | tmpUntemper _ => cases hi
  | _ => rfl

theorem effectOf_lcgUnit (hi : i.blockUnit ≠ .lcg) (s : State) : lcgUnit (effectOf i s) = lcgUnit s := by
  cases i with
  | lcgLdm _ | lcgLda _ | lcgLdc _ | lcgInit _ | lcgRdm | lcgRda | lcgRdc | lcgRdx | lcgNext => exact absurd rfl hi
  | mtSeed _ | mtNext => simp [effectOf, refillIfSpent_eq, lcgUnit]
  | _ => rfl

/-- Check, value and effect of an LCG command are functions of the LCG unit. -/
theorem lcg_parts_congr (hi : i.blockUnit = .lcg) (h : lcgUnit s' = lcgUnit s) :
    failureOf i s' = failureOf i s ∧ valueOf i s' = valueOf i s ∧
      lcgUnit (effectOf i s') = lcgUnit (effectOf i s) := by
  obtain ⟨hm, ha, hc, hx, hrdy⟩ := lcgUnit_eq_iff.mp h
  cases i with
  | sysRdstat | mtSeed _ | mtLdw _ _ | mtLdu _ _ | mtLdi _ | mtRdw _ | mtRdi | mtTwist | mtNext | tmpTemper _
  | tmpUntemper _ => cases hi
  | _ => simp [failureOf, valueOf, effectOf, lcgUnit, hm, ha, hc, hx, hrdy]

/-- Those of an MT or TMP command are functions of the MT unit. -/
theorem mt_parts_congr (hi : i.blockUnit = .mt ∨ i.blockUnit = .tmp) (h : mtUnit s' = mtUnit s) :
    failureOf i s' = failureOf i s ∧ valueOf i s' = valueOf i s ∧
      mtUnit (effectOf i s') = mtUnit (effectOf i s) := by
  obtain ⟨hw, hidx, hrdy⟩ := mtUnit_eq_iff.mp h
  cases i with
  | sysRdstat | lcgLdm _ | lcgLda _ | lcgLdc _ | lcgInit _ | lcgRdm | lcgRda | lcgRdc | lcgRdx | lcgNext =>
    rcases hi with hi | hi <;> cases hi
  | _ => simp [failureOf, valueOf, effectOf, refillIfSpent_eq, mtUnit, hw, hidx, hrdy]

theorem answer_congr {α : Type} (f : State → α) (hf : ∀ u r, f { u with rsp := r } = f u) (hs : f s' = f s)
    (hparts : failureOf i s' = failureOf i s ∧ valueOf i s' = valueOf i s ∧ f (effectOf i s') = f (effectOf i s)) :
    (answer i s').rsp = (answer i s).rsp ∧ f (answer i s') = f (answer i s) := by
  obtain ⟨hfail, hvalue, heffect⟩ := hparts
  rw [answer, answer, hfail, hvalue]
  cases failureOf i s with
  | none => exact ⟨rfl, (hf _ _).trans (heffect.trans (hf _ _).symm)⟩
  | some k => exact ⟨rfl, (hf _ _).trans (hs.trans (hf _ _).symm)⟩

theorem defined_of_lcgUnit_eq (hi : i.blockUnit = .lcg) (h : lcgUnit s' = lcgUnit s) (hdef : Defined i s) :
    Defined i s' := by
  obtain ⟨hm, -, -, -, hrdy⟩ := lcgUnit_eq_iff.mp h
  refine ⟨fun e hready => hm ▸ hdef.1 e (hrdy ▸ hready), fun e => ?_⟩
  subst e
  cases hi

theorem defined_of_mtUnit_eq (hi : i.blockUnit = .mt ∨ i.blockUnit = .tmp) (h : mtUnit s' = mtUnit s)
    (hdef : Defined i s) : Defined i s' := by
  obtain ⟨-, hidx, hrdy⟩ := mtUnit_eq_iff.mp h
  refine ⟨fun e => ?_, fun e hready => hidx ▸ hdef.2 e (hrdy ▸ hready)⟩
  subst e
  rcases hi with hi | hi <;> cases hi

end

/-- Settles O21: the effect of an LCG command keeps the MT unit and every other effect the LCG unit; and check, value
and effect of an engine's commands are functions of that engine's unit. -/
theorem theTwoEnginesShareNothing : Obligations.TheTwoEnginesShareNothing := by
  unfold Obligations.TheTwoEnginesShareNothing
  refine ⟨fun i s t h => ⟨fun hi => ?_, fun hi => ?_⟩, fun i s s' t hi h hm ha hc hx hrdy => ?_,
    fun i s s' t hi h hw hidx hrdy => ?_⟩
  · exact mtUnit_eq_iff.mp (exec_part_kept mtUnit (fun _ _ => rfl) h (effectOf_mtUnit hi s))
  · exact lcgUnit_eq_iff.mp (exec_part_kept lcgUnit (fun _ _ => rfl) h (effectOf_lcgUnit hi s))
  · obtain ⟨hdef, rfl⟩ := exec_next_iff.mp h
    have hunit : lcgUnit s' = lcgUnit s := lcgUnit_eq_iff.mpr ⟨hm, ha, hc, hx, hrdy⟩
    obtain ⟨hrsp, hanswer⟩ := answer_congr lcgUnit (fun _ _ => rfl) hunit (lcg_parts_congr hi hunit)
    exact ⟨_, exec_eq_answer (defined_of_lcgUnit_eq hi hunit hdef), hrsp, lcgUnit_eq_iff.mp hanswer⟩
  · obtain ⟨hdef, rfl⟩ := exec_next_iff.mp h
    have hunit : mtUnit s' = mtUnit s := mtUnit_eq_iff.mpr ⟨hw, hidx, hrdy⟩
    obtain ⟨hrsp, hanswer⟩ := answer_congr mtUnit (fun _ _ => rfl) hunit (mt_parts_congr hi hunit)
    exact ⟨_, exec_eq_answer (defined_of_mtUnit_eq hi hunit hdef), hrsp, mtUnit_eq_iff.mp hanswer⟩

/-! ### Reads (spec/20_memory.md R29) -/

/-- A read has no effect, and does not look at the pending response. -/
theorem read_effect_and_repeat {idx : Index} {i : Instr}
    (hi : i ∈ [Instr.mtRdw idx, .lcgRdm, .lcgRda, .lcgRdc, .lcgRdx, .mtRdi, .sysRdstat]) (s : State) :
    effectOf i s = s ∧ ∀ r, exec i { s with rsp := r } = exec i s := by
  simp only [List.mem_cons, List.not_mem_nil, or_false] at hi
  rcases hi with rfl | rfl | rfl | rfl | rfl | rfl | rfl <;> exact ⟨rfl, fun _ => rfl⟩

/-- Settles O22: an answered read is `s` with a response, on which the read answers as on `s`. -/
theorem readsChangeNothingAndRepeat : Obligations.ReadsChangeNothingAndRepeat := by
  unfold Obligations.ReadsChangeNothingAndRepeat
  intro idx i s t hi h
  obtain ⟨heffect, hrepeat⟩ := read_effect_and_repeat hi s
  have ht : t = { s with rsp := t.rsp } := by
    rcases exec_answered h with ⟨k, -, rfl⟩ | ⟨-, rv, rfl⟩
    · rfl
    · rw [heffect]
  refine ⟨ht, ?_⟩
  rw [ht]
  exact (hrepeat _).trans (h.trans (congrArg _ ht))

end Sys2Proof.Machine

/-! Steps of the channels, reset in flight, and what the host sees after a reset or a parameter load
(spec/70_reset_and_hazards.md R116 to R122, R127, R128). -/

namespace Sys2Proof.Machine

/-! ### The host's events -/

section
variable {s : State} {c : Command} {rest : List HostEvent}

theorem step_of_issue (h : s.host = .issue c :: rest) : step s = issue c { s with host := rest } := by
  simp [step, h, hostEvent]

theorem step_of_take (h : s.host = .take :: rest) : step s = takeResponse { s with host := rest } := by
  simp [step, h, hostEvent]

theorem step_of_idle (h : s.host = []) : step s = .next s := by
  simp [step, h]

theorem step_of_issue_idle (hidle : s.rsp = none) (h : s.host = .issue c :: rest) :
    step s = execute c { s with host := rest } := by
  rw [step_of_issue h, issue_eq, if_pos hidle]

end

/-- Settles O4: the block is free, so the issued command is executed. -/
theorem stepRunsTheDecodedCommand : Obligations.StepRunsTheDecodedCommand := by
  unfold Obligations.StepRunsTheDecodedCommand
  intro s c i rest hidle hhost hd
  exact (step_of_issue_idle hidle hhost).trans (execute_of_ok hd _)

/-- Settles O5: one clause for each event of the host and each state of the response channel. -/
theorem channelDiscipline : Obligations.ChannelDiscipline := by
  unfold Obligations.ChannelDiscipline
  refine ⟨fun s rest h => ⟨_, step_of_reset h, rfl, rfl⟩, fun s r rest hr h => ?_, fun s h => step_of_idle h,
    fun s c r rest hr h => ?_, fun s rest hidle h => ?_⟩
  · exact (step_of_take h).trans (takeResponse_next_iff.mpr ⟨r, hr, rfl⟩)
  · rw [step_of_issue h, issue_eq]
    exact if_neg (hr ▸ Option.some_ne_none r)
  · rw [step_of_take h, takeResponse]
    simp only [hidle]

/-- A reset reads nothing of the state but how many there were before it. -/
theorem applyReset_architectural_eq {s t : State} (h : t.resets = s.resets) :
    (applyReset t).architectural = (applyReset s).architectural := by
  simp only [State.architectural, applyReset, h]

/-- Settles O2: the command in flight left the host's side as it was, and the reset overwrites the rest. -/
theorem resetAbandonsTheCommandInFlight : Obligations.ResetAbandonsTheCommandInFlight := by
  unfold Obligations.ResetAbandonsTheCommandInFlight
  intro s c rest t hidle hhost hstep
  rw [step_of_issue_idle hidle hhost] at hstep
  obtain ⟨hhost', htaken, hresets⟩ := execute_channels hstep
  exact ⟨_, step_of_reset hhost', applyReset_architectural_eq hresets, rfl, htaken, rfl⟩

/-! ### A 32-bit value as an operand (spec/30_encoding.md R40) -/

theorem toNat_zeroExtend_lt (v : Word32) : (v.zeroExtend 64).toNat < 2 ^ 32 :=
  (BitVec.toNat_setWidth_of_le (by decide)).trans_lt v.isLt

@[simp] theorem truncate_zeroExtend (v : Word32) : (v.zeroExtend 64).truncate 32 = v :=
  (BitVec.setWidth_setWidth_of_le v (by decide)).trans (BitVec.setWidth_eq v)

/-! ### After a reset and after a parameter load (R118, R122) -/

/-- The TMP commands on an operand that fits (spec/41_mt_engine.md R90, spec/42_untemper.md R97). -/
theorem tmp_of_word (v : Word32) (s : State) :
    exec (.tmpTemper (v.zeroExtend 64)) s = .next { s with rsp := some ⟨0, (temper v).zeroExtend 64⟩ } ∧
      exec (.tmpUntemper (v.zeroExtend 64)) s = .next { s with rsp := some ⟨0, (untemper v).zeroExtend 64⟩ } := by
  obtain ⟨-, -, hfits, -⟩ := tmpCommandsApplyTheirFunctions (v.zeroExtend 64) s
  simpa only [truncate_zeroExtend] using hfits (toNat_zeroExtend_lt v)

theorem execMtNext_of_not_ready {s : State} (hr : s.mtRdy = false) : execMtNext s = raise .notReady s :=
  whenMtReady_of_not_ready hr _

theorem execMtTwist_of_not_ready {s : State} (hr : s.mtRdy = false) : execMtTwist s = raise .notReady s :=
  whenMtReady_of_not_ready hr _

theorem statusView_applyReset (s : State) : statusView (applyReset s) = 0 := by
  rw [statusView, applyReset_mtRdy, applyReset_lcgRdy]
  decide

/-- Settles O3: the flags are clear, the registers zero and the words those of the parameter. -/
theorem responsesJustAfterReset : Obligations.ResponsesJustAfterReset := by
  unfold Obligations.ResponsesJustAfterReset
  rintro s₀ s rfl
  refine ⟨congrArg (respond .ok · _) (statusView_applyReset s₀), fun i hi => ?_, rfl, fun idx hidx => ?_,
    fun i hi => ?_, fun op => ?_, fun v => ?_, fun v => ?_⟩
  · simp only [List.mem_cons, List.not_mem_nil, or_false] at hi
    rcases hi with rfl | rfl | rfl | rfl <;> rfl
  · exact execMtRdw_of_memRead (memRead_of_mtWordsAfterReset (applyReset_mtW s₀) hidx)
  · simp only [List.mem_cons, List.not_mem_nil, or_false] at hi
    rcases hi with rfl | rfl | rfl
    · exact execLcgNext_of_not_ready (applyReset_lcgRdy s₀)
    · exact execMtNext_of_not_ready (applyReset_mtRdy s₀)
    · exact execMtTwist_of_not_ready (applyReset_mtRdy s₀)
  · obtain ⟨-, -, hfails⟩ := lcgInitConstructsOrFails op (applyReset s₀)
    exact hfails (.inl rfl)
  · exact (tmp_of_word v _).1
  · exact (tmp_of_word v _).2

/-- R63 to R65: what the three parameter loads have in common. -/
theorem parameterLoad_answer {op : Word64} {i : Instr} {s t : State}
    (hi : i ∈ [Instr.lcgLdm op, .lcgLda op, .lcgLdc op]) (h : exec i s = .next t) :
    t.lcgRdy = false ∧ t.lcgX = s.lcgX := by
  simp only [List.mem_cons, List.not_mem_nil, or_false] at hi
  rcases hi with rfl | rfl | rfl <;> obtain rfl := respond_next_iff.mp h <;> exact ⟨rfl, rfl⟩

/-- Settles O34: the load cleared the flag and kept `LCG_X`, and a seed below the modulus constructs again. -/
theorem lcgParameterLoadKeepsTheStateForReinit : Obligations.LcgParameterLoadKeepsTheStateForReinit := by
  unfold Obligations.LcgParameterLoadKeepsTheStateForReinit
  intro op i s t hi h
  obtain ⟨hrdy, hx⟩ := parameterLoad_answer hi h
  refine ⟨execLcgNext_of_not_ready hrdy, hx ▸ respond_next_iff.mpr rfl, fun hlt => ?_⟩
  have hmod : t.lcgM ≠ 0 := fun e => absurd (e ▸ hlt) (Nat.not_lt_zero _)
  obtain ⟨-, hconstructs, -⟩ := lcgInitConstructsOrFails s.lcgX t
  exact hconstructs hmod hlt

end Sys2Proof.Machine

/-! The twist as a whole (spec/41_mt_engine.md R81): the words without in-place reads, what of word 0 matters, and
linearity; all three read the new words off the stream `rawStream`. -/

namespace Sys2Proof.Machine

/-! ### Old and new words -/

theorem rawStream_eq_old (o : MtWords) {j : Nat} (hj : j < 624) : rawStream o j = wordAt o j := by
  rw [rawStream_of_lt o j hj, wordAt_of_lt o hj]

theorem rawStream_eq_new (o : MtWords) {j : Nat} (hj : j < 624) : rawStream o (624 + j) = wordAt (twist o) j := by
  rw [wordAt_of_lt _ hj, twist_getElem_rawStream o j hj]

/-- Each new word by the stream. -/
theorem wordAt_twist (o : MtWords) {j : Nat} (hj : j < 624) :
    wordAt (twist o) j = rawStream o (j + 397) ^^^ twistG (rawStream o j) (rawStream o (j + 1)) := by
  rw [← rawStream_eq_new o hj, rawStream_add]

/-- Settles O43: a read of the stream below 624 is an old word, from 624 on a new one. -/
theorem twistWordsByOldAndNewWords : Obligations.TwistWordsByOldAndNewWords := by
  unfold Obligations.TwistWordsByOldAndNewWords
  rintro o n G rfl hG
  have hG' : ∀ hi lo, G hi lo = twistG hi lo := fun hi lo => (hG hi lo _ rfl).trans (twistG_eq rfl).symm
  refine ⟨fun i hi => ?_, fun i hi hi' => ?_, ?_⟩
  · rw [wordAt_twist o (by omega), hG', rawStream_eq_old o (by omega), rawStream_eq_old o (by omega),
      rawStream_eq_old o (by omega)]
  · rw [wordAt_twist o (by omega), hG', show i + 397 = 624 + (i - 227) by omega, rawStream_eq_new o (by omega),
      rawStream_eq_old o (by omega), rawStream_eq_old o (by omega)]
  · rw [wordAt_twist o (by decide), hG', show 623 + 397 = 624 + 396 from rfl, rawStream_eq_new o (by decide),
      rawStream_eq_old o (by decide), show 623 + 1 = 624 + 0 from rfl, rawStream_eq_new o (by decide)]

/-! ### Equal streams, equal twists -/

/-- Two streams that agree from word 1 on twist to the same words. -/
theorem twist_eq_of_rawStream {v w : MtWords} (h : ∀ j, 1 ≤ j → rawStream v j = rawStream w j) :
    twist v = twist w := by
  apply Vector.ext
  intro j hj
  rw [twist_getElem_rawStream v j hj, twist_getElem_rawStream w j hj, h _ (by omega)]

/-- The upper mask selects bit 31 alone. -/
theorem twistG_congr_top {hi hi' : Word32} (h : hi'.getLsbD 31 = hi.getLsbD 31) (lo : Word32) :
    twistG hi' lo = twistG hi lo := by
  have hmask : hi' &&& upperMask = hi &&& upperMask := by
    apply BitVec.eq_of_getLsbD_eq
    intro i hi
    have hbit : upperMask.getLsbD i = decide (i = 31) := by
      revert i
      decide
    rw [BitVec.getLsbD_and, BitVec.getLsbD_and, hbit]
    by_cases h31 : i = 31
    · rw [h31, h]
    · simp [h31]
  rw [twistG, hmask, twistG]

/-- Settles O44: by strong induction the streams agree from word 1 on, since word 0 enters only as the upper word of one
`G`. -/
theorem twistIgnoresTheLowBitsOfWordZero : Obligations.TwistIgnoresTheLowBitsOfWordZero := by
  unfold Obligations.TwistIgnoresTheLowBitsOfWordZero
  intro w v hv
  refine twist_eq_of_rawStream fun j => ?_
  induction j using Nat.strong_induction_on with
  | _ j ih =>
    intro hj
    rcases Nat.lt_or_ge j 624 with hlt | hge
    · rw [rawStream_of_lt _ j hlt, rawStream_of_lt w j hlt, Vector.getElem_set_ne _ _ (by omega)]
    obtain ⟨k, rfl⟩ := Nat.exists_eq_add_of_le hge
    rw [rawStream_add, rawStream_add, ih (k + 397) (by omega) (by omega), ih (k + 1) (by omega) (by omega)]
    congr 1
    rcases Nat.eq_zero_or_pos k with rfl | hk
    · rw [rawStream_of_lt _ 0 (by decide), rawStream_of_lt w 0 (by decide), Vector.getElem_set_self]
      exact twistG_congr_top hv _
    · rw [ih k (by omega) hk]

/-! ### Linearity -/

theorem xor_and_distrib (a b c : Word32) : (a ^^^ b) &&& c = (a &&& c) ^^^ (b &&& c) := by
  ext i
  simp only [BitVec.getElem_and, BitVec.getElem_xor, Bool.and_xor_distrib_right]

theorem xor_interchange (a b c d : Word32) : (a ^^^ b) ^^^ (c ^^^ d) = (a ^^^ c) ^^^ (b ^^^ d) := by
  ac_rfl

/-- The two masks of `G` select different bits, so the bits joined are the bits XORed. -/
theorem upper_or_lower_xor (a b c d : Word32) :
    (a ^^^ b) &&& upperMask ||| (c ^^^ d) &&& lowerMask =
      (a &&& upperMask ||| c &&& lowerMask) ^^^ (b &&& upperMask ||| d &&& lowerMask) := by
  apply BitVec.eq_of_getLsbD_eq
  intro i hi
  have hmask : lowerMask.getLsbD i = !upperMask.getLsbD i := by
    revert i
    decide
  simp only [BitVec.getLsbD_or, BitVec.getLsbD_and, BitVec.getLsbD_xor, hmask]
  cases upperMask.getLsbD i <;> simp

theorem matrixA_select_xor (b c : Bool) :
    (if (b ^^ c) = true then matrixA else 0) =
      (if b = true then matrixA else 0) ^^^ (if c = true then matrixA else 0) := by
  cases b <;> cases c <;> decide

theorem twistG_xor (a b c d : Word32) : twistG (a ^^^ b) (c ^^^ d) = twistG a c ^^^ twistG b d := by
  simp only [twistG, upper_or_lower_xor, BitVec.ushiftRight_xor_distrib, BitVec.getLsbD_xor, matrixA_select_xor]
  exact xor_interchange _ _ _ _

theorem rawStream_xor (v w : MtWords) (j : Nat) :
    rawStream (Vector.zipWith (· ^^^ ·) v w) j = rawStream v j ^^^ rawStream w j := by
  induction j using Nat.strong_induction_on with
  | _ j ih =>
    rcases Nat.lt_or_ge j 624 with hlt | hge
    · rw [rawStream_of_lt _ j hlt, rawStream_of_lt v j hlt, rawStream_of_lt w j hlt, Vector.getElem_zipWith]
    obtain ⟨k, rfl⟩ := Nat.exists_eq_add_of_le hge
    rw [rawStream_add, rawStream_add, rawStream_add, ih (k + 397) (by omega), ih k (by omega), ih (k + 1) (by omega),
      twistG_xor, xor_interchange]

theorem twist_xor (v w : MtWords) :
    twist (Vector.zipWith (· ^^^ ·) v w) = Vector.zipWith (· ^^^ ·) (twist v) (twist w) := by
  apply Vector.ext
  intro j hj
  rw [twist_getElem_rawStream _ j hj, rawStream_xor, Vector.getElem_zipWith, twist_getElem_rawStream v j hj,
    twist_getElem_rawStream w j hj]

theorem zipWith_xor_self (w : MtWords) : Vector.zipWith (· ^^^ ·) w w = Vector.replicate 624 0 := by
  apply Vector.ext
  intro j hj
  simp

/-- Settles O45: the stream of an XOR is the XOR of the streams; and zero is the XOR of any array with itself, so its
twist is too. -/
theorem twistIsLinear : Obligations.TwistIsLinear := by
  unfold Obligations.TwistIsLinear
  refine ⟨twist_xor, ?_⟩
  calc twist (Vector.replicate 624 0)
      = twist (Vector.zipWith (· ^^^ ·) (Vector.replicate 624 0) (Vector.replicate 624 0)) := by rw [zipWith_xor_self]
    _ = Vector.replicate 624 0 := by rw [twist_xor, zipWith_xor_self]

/-! ### Tempering (R80, spec/42_untemper.md R96) -/

theorem untemper_temper (v : Word32) : untemper (temper v) = v := by
  rw [untemper, temper, (inverse_of_eq_iff T4_eq_iff _).1, (inverse_of_eq_iff T3_eq_iff _).1,
    (inverse_of_eq_iff T2_eq_iff _).1, (inverse_of_eq_iff T1_eq_iff _).1]

theorem temper_untemper (v : Word32) : temper (untemper v) = v := by
  rw [untemper, temper, (inverse_of_eq_iff T1_eq_iff _).2, (inverse_of_eq_iff T2_eq_iff _).2,
    (inverse_of_eq_iff T3_eq_iff _).2, (inverse_of_eq_iff T4_eq_iff _).2]

theorem T1_xor (x y : Word32) : T1 (x ^^^ y) = T1 x ^^^ T1 y := by
  rw [T1, BitVec.ushiftRight_xor_distrib, xor_and_distrib, xor_interchange, T1, T1]

theorem T2_xor (x y : Word32) : T2 (x ^^^ y) = T2 x ^^^ T2 y := by
  rw [T2, BitVec.shiftLeft_xor_distrib, xor_and_distrib, xor_interchange, T2, T2]

theorem T3_xor (x y : Word32) : T3 (x ^^^ y) = T3 x ^^^ T3 y := by
  rw [T3, BitVec.shiftLeft_xor_distrib, xor_and_distrib, xor_interchange, T3, T3]

theorem T4_xor (x y : Word32) : T4 (x ^^^ y) = T4 x ^^^ T4 y := by
  rw [T4, BitVec.ushiftRight_xor_distrib, xor_interchange, T4, T4]

theorem temper_xor (x y : Word32) : temper (x ^^^ y) = temper x ^^^ temper y := by
  rw [temper, T1_xor, T2_xor, T3_xor, T4_xor, temper, temper]

/-- The inverse of a linear bijection is linear. -/
theorem untemper_xor (x y : Word32) : untemper (x ^^^ y) = untemper x ^^^ untemper y := by
  calc untemper (x ^^^ y) = untemper (temper (untemper x) ^^^ temper (untemper y)) := by
        rw [temper_untemper, temper_untemper]
    _ = untemper (temper (untemper x ^^^ untemper y)) := by rw [temper_xor]
    _ = untemper x ^^^ untemper y := untemper_temper _

/-- Settles O47: each step is undone by its inverse on both sides, and each is a sum of linear maps. -/
theorem temperIsALinearBijection : Obligations.TemperIsALinearBijection := by
  unfold Obligations.TemperIsALinearBijection
  exact ⟨fun v => ⟨rfl, untemper_temper v, temper_untemper v⟩, by decide, fun x y => ⟨temper_xor x y, untemper_xor x y⟩⟩

/-- Settles O48: a round fixes `k` more bits than it is given, so its equation has one solution, which the rounds and
the loop both reach. -/
theorem inversionsAreTheUniqueSolutions : Obligations.InversionsAreTheUniqueSolutions := by
  unfold Obligations.InversionsAreTheUniqueSolutions
  intro y v mask k hk hk'
  exact ⟨xor_shiftRight_eq_iff y mask hk hk' v, xor_shiftLeft_eq_iff y mask hk hk' v,
    invRightBits_eq_invRight y mask hk hk', invLeftBits_eq_invLeft y mask hk hk'⟩

/-! ### `MT.LDU` (spec/42_untemper.md R98) -/

theorem execMtLdu_of_index_ge {idx : Index} (hidx : 624 ≤ idx.toNat) (op : Word64) (s : State) :
    execMtLdu idx op s = raise .illegalCommand s := by
  rw [execMtLdu, whenIndexLegal_eq, if_neg hidx.not_gt]

/-- With a legal index only the operand is left to check. -/
theorem execMtLdu_of_index_lt {idx : Index} (hidx : idx.toNat < 624) (op : Word64) (s : State) :
    execMtLdu idx op s = if op.toNat < 2 ^ 32 then respond .ok 0 (memWrite idx (untemper (op.setWidth 32)) s)
      else raise .invalidParameters s := by
  rw [execMtLdu, whenIndexLegal_eq, if_pos hidx, withU32_eq]

/-- `MT.LDW` of a 32-bit value. -/
theorem execMtLdw_of_word {idx : Index} (hidx : idx.toNat < 624) (w : Word32) (s : State) :
    execMtLdw idx (w.zeroExtend 64) s = respond .ok 0 (memWrite idx w s) := by
  have hw : (w.zeroExtend 64).setWidth 32 = w := truncate_zeroExtend w
  rw [execMtLdw_of_index_lt hidx, if_pos (toNat_zeroExtend_lt w), hw]

/-- Settles O37: the command is `memWrite` of the untempered operand behind its two checks. -/
theorem mtLduWritesTheUntemperedWord : Obligations.MtLduWritesTheUntemperedWord := by
  unfold Obligations.MtLduWritesTheUntemperedWord
  intro idx op s
  refine ⟨fun hidx => ?_, fun hidx hop => ?_, fun hidx hop => ?_, fun hidx => execMtLdu_of_index_ge hidx op s⟩
  · rw [opcode_add_index 0x22 idx _ rfl]
    exact decode_packWord_of_formatX rfl hidx
  · exact ⟨_, _, (execMtLdu_of_index_lt hidx op s).trans (if_pos hop), memRead_write_self _ s hidx, rfl,
      temper_untemper _, fun j hj => memRead_write_other _ s hj.symm, rfl, execMtLdw_of_word hidx _ s⟩
  · exact (execMtLdu_of_index_lt hidx op s).trans (if_neg hop.not_gt)

end Sys2Proof.Machine

/-! Sequences of commands (spec/30_encoding.md R49 to R58). -/

namespace Sys2Proof.Machine

/-- Settles O52: a sequence continues after one that ended with OK by the command that follows, and a
pseudo-instruction is its expansion. -/
theorem sequencesStopAtTheFirstFailure : Obligations.SequencesStopAtTheFirstFailure := by
  unfold Obligations.SequencesStopAtTheFirstFailure
  refine ⟨fun l i m s q t r hl hq ht hr => ?_, fun l i s q t r hl hq ht hr => ?_, fun p s q hq => ?_⟩
  · simpa using issueAll_append hl hq (issueAll_cons_failed (rest := m) ht hr)
  · exact issueAll_append hl hq (issueAll_cons_ok ht hr (issueAll_nil t))
  · rw [runPseudo, hq]
    rfl

theorem runPseudo_of_failed {p : Pseudo} {s t : State} {st : BitVec 4} {vs : List Word64}
    (h : issueAll p.expand s = .next ⟨t, st, vs⟩) (hst : st ≠ 0) : runPseudo p s = .next ⟨t, st, .nothing⟩ := by
  obtain ⟨-, -, hrun⟩ := sequencesStopAtTheFirstFailure
  rw [hrun p s _ h, if_neg hst]

/-! ### Generating on a unit that is not constructed -/

/-- Every command of the sequence fails its readiness check, so the first one ends it. -/
theorem runPseudo_of_notReady {p : Pseudo} {i : Instr} {n : Nat} {s : State}
    (hp : p.expand = List.replicate n i) (hn : n ≠ 0) (hwf : i.wf = true) (hexec : exec i s = raise .notReady s)
    (hidle : s.rsp = none) :
    runPseudo p s = .next ⟨{ s with rsp := none, taken := s.taken ++ [⟨7, 0⟩] }, 7, .nothing⟩ := by
  have ht := transact_encode (decode_encode hwf) hidle (hexec.trans (raise_next_iff.mpr rfl)) rfl
  obtain ⟨m, rfl⟩ := Nat.exists_eq_succ_of_ne_zero hn
  rw [List.replicate_succ] at hp
  exact runPseudo_of_failed (hp ▸ issueAll_cons_failed ht (by decide)) (by decide)

theorem outputsFor_ne_zero {n w : Nat} (hw : 1 ≤ w) (hn : n ≠ 0) : outputsFor n w ≠ 0 :=
  Nat.ne_of_gt (Nat.div_pos (by omega) hw)

/-- A generation sequence of length 0 gives the value of no outputs. -/
theorem runPseudo_of_no_commands {p : Pseudo} (hp : p.expand = []) (s : State) :
    runPseudo p s = .next ⟨s, 0, p.value []⟩ :=
  runPseudo_of_issueAll (hp ▸ issueAll_nil s)

/-- Settles O53: for `n = 0` there is nothing to issue; otherwise at least one command is issued and fails. -/
theorem generationNeedsAConstructedUnit : Obligations.GenerationNeedsAConstructedUnit := by
  unfold Obligations.GenerationNeedsAConstructedUnit
  intro n w s v st hidle hw _ hv hst
  rcases Nat.eq_zero_or_pos n with rfl | hpos
  · simp only [if_true] at hv hst
    rw [hst, hv, hv]
    have hempty : ∀ k i, 1 ≤ k → List.replicate (outputsFor 0 k) i = ([] : List Instr) :=
      fun k i hk => by rw [outputsFor_zero k hk, List.replicate_zero]
    refine ⟨fun _ => ⟨s, rfl, rfl, ?_⟩, fun _ => ⟨s, rfl, rfl, ?_⟩⟩
    · exact runPseudo_of_no_commands (p := .lcgGenb 0 w) (hempty w .lcgNext hw) s
    · exact runPseudo_of_no_commands (p := .mtGenb 0) (hempty 4 .mtNext (by decide)) s
  · have hn : n ≠ 0 := hpos.ne'
    simp only [if_neg hn] at hv hst
    rw [hst, hv, hv]
    let t : State := { s with rsp := none, taken := s.taken ++ [⟨7, 0⟩] }
    refine ⟨fun hready => ⟨t, rfl, ?_, ?_⟩, fun hready => ⟨t, rfl, ?_, ?_⟩⟩
    · exact runPseudo_of_notReady (p := .lcgGen n) rfl hn rfl (execLcgNext_of_not_ready hready) hidle
    · exact runPseudo_of_notReady (p := .lcgGenb n w) rfl (outputsFor_ne_zero hw hn) rfl
        (execLcgNext_of_not_ready hready) hidle
    · exact runPseudo_of_notReady (p := .mtGen n) rfl hn rfl (execMtNext_of_not_ready hready) hidle
    · exact runPseudo_of_notReady (p := .mtGenb n) rfl (outputsFor_ne_zero (by decide) hn) rfl
        (execMtNext_of_not_ready hready) hidle

/-! ### `LCG.CONS` (R55) -/

/-- The three parameter loads as a sequence. -/
theorem issueAll_parameterLoads (m a c : Word64) {s : State} (hidle : s.rsp = none) :
    ∃ t vs, issueAll [.lcgLdm m, .lcgLda a, .lcgLdc c] s = .next ⟨t, 0, vs⟩ ∧ t.rsp = none ∧
      t.architectural = { s.architectural with lcgM := m, lcgA := a, lcgC := c, lcgRdy := false } := by
  exact ⟨_, _, issueAll_cons_ok (transact_encode (decode_encode rfl) hidle rfl rfl) rfl
    (issueAll_cons_ok (transact_encode (decode_encode rfl) rfl rfl rfl) rfl
      (issueAll_cons_ok (transact_encode (decode_encode rfl) rfl rfl rfl) rfl (issueAll_nil _))), rfl, rfl⟩

/-- Settles O33: after the three loads the outcome is that of `LCG.INIT` under the new modulus. -/
theorem lcgConsConstructsOrFails : Obligations.LcgConsConstructsOrFails := by
  unfold Obligations.LcgConsConstructsOrFails
  intro m a c seed s hidle
  obtain ⟨t, vs, hloads, htidle, harch⟩ := issueAll_parameterLoads m a c hidle
  have hmod : t.lcgM = m := congrArg Architectural.lcgM harch
  obtain ⟨-, hconstructs, hfails⟩ := lcgInitConstructsOrFails seed t
  refine ⟨fun ⟨hm, hseed⟩ => ?_, fun hbad => ?_⟩
  · have hinit := transact_encode (decode_encode rfl) htidle (hconstructs (hmod ▸ hm) (hmod ▸ hseed)) rfl
    refine ⟨_, runPseudo_of_issueAll (p := .lcgCons m a c seed)
      (issueAll_append hloads rfl (issueAll_cons_ok hinit rfl (issueAll_nil _))), ?_⟩
    exact congrArg (fun u : Architectural => { u with lcgX := seed, lcgRdy := true }) harch
  · have hbad' : m = 0 ∨ m.toNat ≤ seed.toNat := by
      rwa [not_and_or, not_not, Nat.not_lt] at hbad
    have hinit := transact_encode (decode_encode rfl) htidle (hfails (hmod ▸ hbad')) rfl
    exact ⟨_, runPseudo_of_failed (p := .lcgCons m a c seed)
      (issueAll_append hloads rfl (issueAll_cons_failed hinit (by decide))) (by decide), harch⟩

/-! ### Parameters that agree modulo `m` (spec/40_lcg.md R62) -/

theorem lcgStep_residues {m : Word64} (a c x : Word64) (hm : m ≠ 0) :
    lcgStep m a c x = lcgStep m (a % m) (c % m) (x % m) := by
  apply BitVec.eq_of_toNat_eq
  rw [lcgStep_toNat hm, lcgStep_toNat hm, BitVec.toNat_umod, BitVec.toNat_umod, BitVec.toNat_umod]
  exact (((Nat.mod_modEq _ _).mul (Nat.mod_modEq _ _)).add (Nat.mod_modEq _ _)).symm

theorem lcgStep_congr {m a a' c c' : Word64} (hm : m ≠ 0) (ha : a' % m = a % m) (hc : c' % m = c % m) (x : Word64) :
    lcgStep m a' c' x = lcgStep m a c x := by
  rw [lcgStep_residues a' c' x hm, ha, hc, ← lcgStep_residues a c x hm]

theorem lcgOrbit_iterate {s : State} (hidle : s.rsp = none) (hready : s.lcgRdy = true) (hmod : s.lcgM ≠ 0) :
    LcgOrbit s fun k => (lcgStep s.lcgM s.lcgA s.lcgC)^[k] s.lcgX := by
  refine ⟨hidle, hready, hmod, rfl, fun k => ?_⟩
  rw [Function.iterate_succ_apply', lcgStep_toNat hmod]

/-- Settles O30: the step reads the residues only, so both units have one orbit, and `LCG.GEN` gives its elements. -/
theorem lcgOutputsDependOnResiduesOnly : Obligations.LcgOutputsDependOnResiduesOnly := by
  unfold Obligations.LcgOutputsDependOnResiduesOnly
  refine ⟨fun m a c x hm => lcgStep_residues a c x hm,
    fun n s s' p hready hready' hmod hM hX hA hC hidle hidle' hrun => ?_⟩
  have hstep : lcgStep s'.lcgM s'.lcgA s'.lcgC = lcgStep s.lcgM s.lcgA s.lcgC :=
    funext fun x => hM ▸ lcgStep_congr hmod hA hC x
  have horbit := lcgOrbit_iterate hidle hready hmod
  have horbit' := lcgOrbit_iterate hidle' hready' (hM.symm ▸ hmod)
  rw [hstep, hX] at horbit'
  obtain ⟨t, ht, -⟩ := horbit.issueAll_lcgNext n
  obtain ⟨t', ht', -⟩ := horbit'.issueAll_lcgNext n
  obtain rfl := Host.Outcome.next.inj (hrun.symm.trans (runPseudo_of_issueAll (p := .lcgGen n) ht))
  exact ⟨_, runPseudo_of_issueAll (p := .lcgGen n) ht', rfl, rfl⟩

end Sys2Proof.Machine

/-! Loading and reading a complete MT state (spec/30_encoding.md R56 to R58). `MT.LDSTATE` and `MT.CLONE` are one
sequence, with `MT.LDW` and `MT.LDU` as the command that loads a word. -/

namespace Sys2Proof.Machine

/-! ### A sequence of word loads -/

/-- `load` is a command that writes `f` of its 32-bit operand to the word of its index. -/
structure IsWordLoad (load : Index → Word64 → Instr) (f : Word32 → Word32) : Prop where
  wf : ∀ idx op, idx.toNat < 624 → (load idx op).wf = true
  exec_eq : ∀ idx op s, idx.toNat < 624 → exec (load idx op) s =
    if op.toNat < 2 ^ 32 then respond .ok 0 (memWrite idx (f (op.setWidth 32)) s) else raise .invalidParameters s

theorem isWordLoad_mtLdw : IsWordLoad .mtLdw id :=
  ⟨fun idx _ h => (indexLegal_iff idx).mpr h, fun _ op s h => execMtLdw_of_index_lt h op s⟩

theorem isWordLoad_mtLdu : IsWordLoad .mtLdu untemper :=
  ⟨fun idx _ h => (indexLegal_iff idx).mpr h, fun _ op s h => execMtLdu_of_index_lt h op s⟩

theorem ofNat_index_toNat {k : Nat} (hk : k < 624) : (BitVec.ofNat 10 k).toNat = k :=
  (BitVec.toNat_ofNat k 10).trans (Nat.mod_eq_of_lt (by omega))

section
variable {load : Index → Word64 → Instr} {f : Word32 → Word32} (hload : IsWordLoad load f) (ops : Nat → Word64)
include hload

/-- A load whose operand fits writes one word. -/
theorem transact_wordLoad {k : Nat} (hk : k < 624) {op : Word64} (hfit : op.toNat < 2 ^ 32) {s : State}
    (hidle : s.rsp = none) :
    ∃ t, transact (encode (load (BitVec.ofNat 10 k) op)) s = .next (t, ⟨0, 0⟩) ∧ t.rsp = none ∧
      t.architectural = { s.architectural with mtW := s.mtW.setIfInBounds k (f (op.setWidth 32)) } := by
  have hidx : (BitVec.ofNat 10 k).toNat = k := ofNat_index_toNat hk
  have hexec := (hload.exec_eq (BitVec.ofNat 10 k) op s (hidx.trans_lt hk)).trans (if_pos hfit)
  refine ⟨_, transact_encode (decode_encode (hload.wf _ op (hidx.trans_lt hk))) hidle hexec rfl, rfl, ?_⟩
  simp only [State.architectural, memWrite, hidx]

/-- A load whose operand does not fit fails. -/
theorem transact_wordLoad_failed {k : Nat} (hk : k < 624) {op : Word64} (hbad : ¬op.toNat < 2 ^ 32) {s : State}
    (hidle : s.rsp = none) : ∃ t, transact (encode (load (BitVec.ofNat 10 k) op)) s = .next (t, ⟨4, 0⟩) := by
  have hidx : (BitVec.ofNat 10 k).toNat < 624 := (ofNat_index_toNat hk).trans_lt hk
  exact ⟨_, transact_encode (decode_encode (hload.wf _ op hidx)) hidle
    ((hload.exec_eq _ op s hidx).trans (if_neg hbad)) rfl⟩

variable (ops : Nat → Word64) (l : List Nat) (hl : ∀ k ∈ l, k < 624)
include hl

/-- When the operands fit, every load of the sequence writes its word and the rest of the unit stays. -/
theorem issueAll_wordLoads (hfit : ∀ k ∈ l, (ops k).toNat < 2 ^ 32) {s : State} (hidle : s.rsp = none) :
    ∃ t vs, issueAll (l.map fun k => load (BitVec.ofNat 10 k) (ops k)) s = .next ⟨t, 0, vs⟩ ∧ t.rsp = none ∧
      (∀ j (h : j < 624), t.mtW[j] = if j ∈ l then f ((ops j).setWidth 32) else s.mtW[j]) ∧
      t.architectural = { s.architectural with mtW := t.mtW } := by
  induction l generalizing s with
  | nil => exact ⟨s, [], rfl, hidle, fun j h => by simp, rfl⟩
  | cons k l ih =>
    obtain ⟨hk, hl⟩ := List.forall_mem_cons.mp hl
    obtain ⟨hkfit, hfit⟩ := List.forall_mem_cons.mp hfit
    obtain ⟨u, hu, huidle, huarch⟩ := transact_wordLoad hload hk hkfit hidle
    obtain ⟨t, vs, hrun, htidle, hwords, htarch⟩ := ih hl hfit huidle
    have huW : u.mtW = s.mtW.setIfInBounds k (f ((ops k).setWidth 32)) := congrArg Architectural.mtW huarch
    refine ⟨t, _, issueAll_cons_ok hu rfl hrun, htidle, fun j hj => ?_, by rw [htarch, huarch]⟩
    rw [hwords j hj]
    by_cases hjl : j ∈ l
    · simp [hjl]
    · by_cases hjk : j = k
      · subst hjk
        simp [hjl, huW]
      · simp [hjl, hjk, huW, Ne.symm hjk]

/-- The first operand that does not fit ends the sequence. -/
theorem issueAll_wordLoads_failed (hbad : ∃ k ∈ l, ¬(ops k).toNat < 2 ^ 32) (rest : List Instr) {s : State}
    (hidle : s.rsp = none) :
    ∃ t vs, issueAll ((l.map fun k => load (BitVec.ofNat 10 k) (ops k)) ++ rest) s = .next ⟨t, 4, vs⟩ := by
  induction l generalizing s with
  | nil => simp at hbad
  | cons k l ih =>
    obtain ⟨hk, hl⟩ := List.forall_mem_cons.mp hl
    by_cases hkfit : (ops k).toNat < 2 ^ 32
    · obtain ⟨u, hu, huidle, -⟩ := transact_wordLoad hload hk hkfit hidle
      obtain ⟨j, hj, hjbad⟩ := hbad
      have hjl : j ∈ l := (List.mem_cons.mp hj).resolve_left fun e => hjbad (e ▸ hkfit)
      obtain ⟨t, vs, hrun⟩ := ih hl ⟨j, hjl, hjbad⟩ huidle
      exact ⟨t, _, issueAll_cons_ok hu rfl hrun⟩
    · obtain ⟨t, ht⟩ := transact_wordLoad_failed hload hk hkfit hidle
      exact ⟨t, [], issueAll_cons_failed ht (by decide)⟩

end

/-! ### All 624 words and the index -/

/-- `MT.LDI` as the last command of a sequence. -/
theorem transact_mtLdi (idx : Word64) {s : State} (hidle : s.rsp = none) :
    ∃ t r, transact (encode (.mtLdi idx)) s = .next (t, r) ∧ (r.st = 0 ↔ idx.toNat ≤ 624) ∧
      (r.st = 0 → t.rsp = none ∧
        t.architectural = { s.architectural with mtIdx := idx.setWidth 10, mtRdy := true }) := by
  have hexec : exec (.mtLdi idx) s = _ := withIdx625_eq idx s _
  by_cases hidx : idx.toNat ≤ 624
  · exact ⟨_, _, transact_encode (decode_encode rfl) hidle (hexec.trans (if_pos hidx)) rfl, iff_of_true rfl hidx,
      fun _ => ⟨rfl, rfl⟩⟩
  · exact ⟨_, _, transact_encode (decode_encode rfl) hidle (hexec.trans (if_neg hidx)) rfl,
      iff_of_false (by decide) hidx, fun h => absurd h (by decide)⟩

/-- The sequence of `MT.LDSTATE` and of `MT.CLONE`: OK exactly when all operands fit, and then the state is the given
one. -/
theorem issueAll_loadState {load : Index → Word64 → Instr} {f : Word32 → Word32} (hload : IsWordLoad load f)
    (ops : Nat → Word64) (idx : Word64) {s : State} (hidle : s.rsp = none) :
    ∃ q : SequenceResult, issueAll (forEachIndex (fun i k => load i (ops k)) ++ [Instr.mtLdi idx]) s = .next q ∧
      (q.status = 0 ↔ (∀ k < 624, (ops k).toNat < 2 ^ 32) ∧ idx.toNat ≤ 624) ∧
      (q.status = 0 → q.state.rsp = none ∧ q.state.architectural =
        { s.architectural with
          mtW := tabulate fun k => f ((ops k).setWidth 32), mtIdx := idx.setWidth 10, mtRdy := true }) := by
  have hl : ∀ k ∈ List.range 624, k < 624 := fun k => List.mem_range.mp
  by_cases hfit : ∀ k < 624, (ops k).toNat < 2 ^ 32
  · obtain ⟨t, vs, ht, htidle, hwords, htarch⟩ :=
      issueAll_wordLoads hload ops _ hl (fun k hk => hfit k (hl k hk)) hidle
    have htW : t.mtW = tabulate fun k => f ((ops k).setWidth 32) := by
      apply Vector.ext
      intro j hj
      rw [hwords j hj, if_pos (List.mem_range.mpr hj), tabulate_getElem _ j hj]
    obtain ⟨u, r, hu, hr, hloaded⟩ := transact_mtLdi idx htidle
    by_cases hst : r.st = 0
    · obtain ⟨huidle, huarch⟩ := hloaded hst
      refine ⟨_, issueAll_append ht rfl (issueAll_cons_ok hu hst (issueAll_nil u)),
        iff_of_true rfl ⟨hfit, hr.mp hst⟩, fun _ => ⟨huidle, ?_⟩⟩
      rw [huarch, htarch, htW]
    · exact ⟨_, issueAll_append ht rfl (issueAll_cons_failed hu hst),
        iff_of_false hst fun h => hst (hr.mpr h.2), fun h => absurd h hst⟩
  · have hbad : ∃ k ∈ List.range 624, ¬(ops k).toNat < 2 ^ 32 := by
      simpa only [List.mem_range, not_forall, exists_prop] using hfit
    obtain ⟨t, vs, ht⟩ := issueAll_wordLoads_failed hload ops _ hl hbad [.mtLdi idx] hidle
    have hfailed : (4 : BitVec 4) ≠ 0 := by decide
    exact ⟨_, ht, iff_of_false hfailed fun h => hfit h.1, fun h => absurd h hfailed⟩

theorem toList_getD (ws : Vector Word64 624) {k : Nat} (hk : k < 624) : ws.toList.getD k 0 = ws[k] := by
  simp [hk]

/-- What `MT.LDSTATE` and `MT.CLONE` have in common, as pseudo-instructions. -/
theorem runPseudo_loadState {load : Index → Word64 → Instr} {f : Word32 → Word32} (hload : IsWordLoad load f)
    {p : Pseudo} {ws : Vector Word64 624} {idx : Word64}
    (hp : p.expand = forEachIndex (fun i k => load i (ws.toList.getD k 0)) ++ [Instr.mtLdi idx])
    (hvalue : ∀ vs, p.value vs = .nothing) {s : State} (hidle : s.rsp = none) :
    ∃ q : PseudoResult, runPseudo p s = .next q ∧ q.value = .nothing ∧
      (q.status = 0 ↔ (∀ i (h : i < 624), ws[i].toNat < 2 ^ 32) ∧ idx.toNat ≤ 624) ∧
      (q.status = 0 → q.state.rsp = none ∧ ∃ w : MtWords, (∀ i (h : i < 624), w[i] = f (ws[i].truncate 32)) ∧
        q.state.architectural =
          { s.architectural with mtW := w, mtIdx := idx.truncate 10, mtRdy := true }) := by
  obtain ⟨q, hq, hstatus, hstate⟩ := issueAll_loadState hload (fun k => ws.toList.getD k 0) idx hidle
  obtain ⟨-, -, hrun⟩ := sequencesStopAtTheFirstFailure
  refine ⟨_, hrun p s q (hp ▸ hq), ?_, hstatus.trans (and_congr_left' ?_), fun hok => ?_⟩
  · simp only [hvalue, ite_self]
  · exact forall₂_congr fun k hk => by rw [toList_getD ws hk]
  · obtain ⟨hidle', harch⟩ := hstate hok
    exact ⟨hidle', _, fun i hi => by rw [tabulate_getElem _ i hi, toList_getD ws hi], harch⟩

theorem runPseudo_mtClone (ys : Vector Word64 624) {s : State} (hidle : s.rsp = none) :
    ∃ q : PseudoResult, runPseudo (.mtClone ys) s = .next q ∧ q.value = .nothing ∧
      (q.status = 0 ↔ ∀ i (h : i < 624), ys[i].toNat < 2 ^ 32) ∧
      (q.status = 0 → q.state.rsp = none ∧
        ∃ w : MtWords, (∀ i (h : i < 624), w[i] = untemper (ys[i].truncate 32)) ∧
          q.state.architectural = { s.architectural with mtW := w, mtIdx := 624, mtRdy := true }) := by
  obtain ⟨q, hq, hvalue, hstatus, hstate⟩ :=
    runPseudo_loadState isWordLoad_mtLdu (p := .mtClone ys) rfl (fun _ => rfl) hidle
  exact ⟨q, hq, hvalue, hstatus.trans (and_iff_left (by decide)), hstate⟩

/-- Settles O57: the sequence of `MT.LDU` with an index that is always legal. -/
theorem mtCloneLoadsTheUntemperedSamples : Obligations.MtCloneLoadsTheUntemperedSamples := by
  unfold Obligations.MtCloneLoadsTheUntemperedSamples
  intro ys s hidle
  obtain ⟨q, hq, -, hstatus, hstate⟩ := runPseudo_mtClone ys hidle
  exact ⟨q, hq, hstatus, fun hok => (hstate hok).2⟩

/-! ### Reading the state back (R57) -/

theorem transact_mtRdw {k : Nat} (hk : k < 624) {s : State} (hidle : s.rsp = none) :
    ∃ t, transact (encode (.mtRdw (BitVec.ofNat 10 k))) s = .next (t, ⟨0, (wordAt s.mtW k).zeroExtend 64⟩) ∧
      t.rsp = none ∧ t.architectural = s.architectural := by
  have hidx : (BitVec.ofNat 10 k).toNat = k := ofNat_index_toNat hk
  have hexec := (execMtRdw_eq (BitVec.ofNat 10 k) s).trans (if_pos (hidx.trans_lt hk))
  rw [hidx] at hexec
  exact ⟨_, transact_encode (decode_encode ((indexLegal_iff _).mpr (hidx.trans_lt hk))) hidle hexec rfl, rfl, rfl⟩

theorem transact_mtRdi {s : State} (hidle : s.rsp = none) :
    ∃ t, transact (encode .mtRdi) s = .next (t, ⟨0, s.mtIdx.zeroExtend 64⟩) ∧ t.architectural = s.architectural :=
  ⟨_, transact_encode (decode_encode rfl) hidle rfl rfl, rfl⟩

theorem issueAll_wordReads (l : List Nat) (hl : ∀ k ∈ l, k < 624) {s : State} (hidle : s.rsp = none) :
    ∃ t, issueAll (l.map fun k => .mtRdw (BitVec.ofNat 10 k)) s =
        .next ⟨t, 0, l.map fun k => (wordAt s.mtW k).zeroExtend 64⟩ ∧
      t.rsp = none ∧ t.architectural = s.architectural := by
  induction l generalizing s with
  | nil => exact ⟨s, rfl, hidle, rfl⟩
  | cons k l ih =>
    obtain ⟨hk, hl⟩ := List.forall_mem_cons.mp hl
    obtain ⟨u, hu, huidle, huarch⟩ := transact_mtRdw hk hidle
    obtain ⟨t, ht, htidle, htarch⟩ := ih hl huidle
    have huW : u.mtW = s.mtW := congrArg Architectural.mtW huarch
    rw [huW] at ht
    exact ⟨t, issueAll_cons_ok hu rfl ht, htidle, htarch.trans huarch⟩

theorem map_wordAt_range (w : MtWords) (g : Word32 → Word64) :
    (List.range 624).map (fun k => g (wordAt w k)) = w.toList.map g := by
  apply List.ext_getElem
  · simp
  · intro k hk _
    have hk' : k < 624 := by simpa using hk
    simp [wordAt_of_lt w hk']

theorem mtRdstate_value (vs : List Word64) (idx : Word64) (h : vs.length = 624) :
    Pseudo.mtRdstate.value (vs ++ [idx]) = .mtState vs idx := by
  simp [Pseudo.value, ← h]

/-- Settles O58: both are sequences over all word indices; `MT.LDSTATE` is the sequence of `MT.LDW`, and `MT.RDSTATE`
gives one value per word and then the index. -/
theorem mtStateLoadsAndReadsBack : Obligations.MtStateLoadsAndReadsBack := by
  unfold Obligations.MtStateLoadsAndReadsBack
  constructor
  · intro ws idx s hidle
    obtain ⟨q, hq, -, hstatus, hstate⟩ :=
      runPseudo_loadState isWordLoad_mtLdw (p := .mtLdstate ws idx) rfl (fun _ => rfl) hidle
    exact ⟨q, hq, hstatus, fun hok => (hstate hok).2⟩
  · intro s hidle
    obtain ⟨t, ht, htidle, htarch⟩ := issueAll_wordReads (List.range 624) (fun k => List.mem_range.mp) hidle
    rw [map_wordAt_range s.mtW fun w => w.zeroExtend 64] at ht
    obtain ⟨u, hu, huarch⟩ := transact_mtRdi htidle
    have htidx : t.mtIdx = s.mtIdx := congrArg Architectural.mtIdx htarch
    have hissue : issueAll Pseudo.mtRdstate.expand s =
        .next ⟨u, 0, (s.mtW.toList.map fun w => w.zeroExtend 64) ++ [t.mtIdx.zeroExtend 64]⟩ :=
      issueAll_append ht rfl (issueAll_cons_ok hu rfl (issueAll_nil u))
    have hrun := runPseudo_of_issueAll hissue
    rw [mtRdstate_value _ _ (by simp), htidx] at hrun
    exact ⟨u, hrun, huarch.trans htarch⟩

end Sys2Proof.Machine

/-! The output stream of the MT unit (spec/42_untemper.md R99, R100): one `MT.NEXT` moves one position along the stream
of raw words, whether or not it twists, and a clone stands at another position of the same stream. -/

namespace Sys2Proof.Machine

/-- `x` is a stream of raw words, continued by the recurrence of spec/41_mt_engine.md R81. -/
def IsRawStream (x : Nat → Word32) : Prop := ∀ j, x (j + 624) = x (j + 397) ^^^ twistG (x j) (x (j + 1))

theorem IsRawStream.shift {x : Nat → Word32} (hx : IsRawStream x) (p : Nat) : IsRawStream fun j => x (p + j) :=
  fun j => by simpa only [Nat.add_assoc] using hx (p + j)

/-- The state of a unit at rest after `n` outputs: the words of the last twist, and the index behind the last output;
`n = 0` is the unit whose words are spent and not yet twisted. -/
structure AtOutput (x : Nat → Word32) (n : Nat) (s : State) : Prop where
  idle : s.rsp = none
  ready : s.mtRdy = true
  words : ∀ i (h : i < 624), s.mtW[i] = x (624 * ((n + 623) / 624) + i)
  index : s.mtIdx.toNat = (n + 623) % 624 + 1

theorem atOutput_zero {x : Nat → Word32} {s : State} (hidle : s.rsp = none) (hready : s.mtRdy = true)
    (hidx : s.mtIdx = 624) (hwords : ∀ j (h : j < 624), s.mtW[j] = x j) : AtOutput x 0 s := by
  refine ⟨hidle, hready, fun i hi => ?_, hidx ▸ rfl⟩
  rw [hwords i hi]
  exact congrArg x (Nat.zero_add i).symm

section
variable {x : Nat → Word32} {n : Nat} {s : State} (hx : IsRawStream x)
include hx

/-- The twist replaces each word by the one 624 positions further on. -/
theorem twist_words {w : MtWords} {e : Nat} (hw : ∀ i (h : i < 624), w[i] = x (e + i)) (j : Nat) (hj : j < 624) :
    (twist w)[j] = x (e + 624 + j) := by
  have hrec : ∀ j < 624, x (e + (624 + j)) = x (e + (j + 397)) ^^^ twistG (x (e + j)) (x (e + (j + 1))) :=
    fun j _ => Nat.add_comm j 624 ▸ hx.shift e j
  rw [twist_getElem w (fun j => x (e + j)) (fun j hj => (hw j hj).symm) hrec j hj, Nat.add_assoc]

/-- The next `MT.NEXT` gives the next word of the stream, tempered. -/
theorem AtOutput.transact_mtNext (h : AtOutput x n s) :
    ∃ t, transact (encode .mtNext) s = .next (t, ⟨0, (temper (x (624 + n))).zeroExtend 64⟩) ∧
      AtOutput x (n + 1) t ∧ t.architectural = { s.architectural with mtW := t.mtW, mtIdx := t.mtIdx } := by
  obtain ⟨hidle, hready, hwords, hindex⟩ := h
  have hdiv := Nat.div_add_mod (n + 623) 624
  rcases Nat.lt_or_ge s.mtIdx.toNat 624 with hlt | hge
  · have hout : s.mtW[s.mtIdx.toNat] = x (624 + n) := by
      rw [hwords _ hlt]
      exact congrArg x (by omega)
    have hexec : exec .mtNext s = _ := execMtNext_of_index_lt hready hlt
    rw [hout] at hexec
    refine ⟨_, transact_encode (decode_encode rfl) hidle hexec rfl, ⟨rfl, hready, fun i hi => ?_, ?_⟩, rfl⟩
    · rw [show (n + 1 + 623) / 624 = (n + 623) / 624 by omega]
      exact hwords i hi
    · change (s.mtIdx + 1).toNat = _
      bv_omega
  · have hidx : s.mtIdx.toNat = 624 := by omega
    have hspent : s.mtIdx = 624 := BitVec.eq_of_toNat_eq hidx
    have hnew := twist_words hx hwords
    have hout : (twist s.mtW)[0] = x (624 + n) := by
      rw [hnew 0 (by decide)]
      exact congrArg x (by omega)
    have hexec : exec .mtNext s = _ := execMtNext_of_spent hready hspent
    rw [hout] at hexec
    refine ⟨_, transact_encode (decode_encode rfl) hidle hexec rfl, ⟨rfl, hready, fun i hi => ?_, ?_⟩, rfl⟩
    · rw [show 624 * ((n + 1 + 623) / 624) = 624 * ((n + 623) / 624) + 624 by omega]
      exact hnew i hi
    · change 1 = (n + 1 + 623) % 624 + 1
      omega

/-- The first `n` outputs. -/
theorem AtOutput.issueAll_mtNext (h : AtOutput x 0 s) (n : Nat) :
    ∃ t, issueAll (List.replicate n .mtNext) s =
        .next ⟨t, 0, (List.range n).map fun k => (temper (x (624 + k))).zeroExtend 64⟩ ∧
      AtOutput x n t ∧ t.architectural = { s.architectural with mtW := t.mtW, mtIdx := t.mtIdx } := by
  induction n with
  | zero => exact ⟨s, rfl, h, rfl⟩
  | succ n ih =>
    obtain ⟨t, ht, hat, htarch⟩ := ih
    obtain ⟨u, hu, hau, huarch⟩ := hat.transact_mtNext hx
    refine ⟨u, ?_, hau, by rw [huarch, htarch]⟩
    rw [List.replicate_succ', List.range_succ, List.map_append]
    exact issueAll_append ht rfl (issueAll_cons_ok hu rfl (issueAll_nil u))

end

/-- Settles O55: after `n` outputs the unit stands at position `n` of the stream. -/
theorem mtOutputsAreTheTemperedStream : Obligations.MtOutputsAreTheTemperedStream := by
  unfold Obligations.MtOutputsAreTheTemperedStream
  intro s x n hidle hready hidx hwords hx
  obtain ⟨t, ht, hat, harch⟩ := (atOutput_zero hidle hready hidx hwords).issueAll_mtNext hx n
  refine ⟨t, runPseudo_mtGen_ok_iff.mpr ht, hat.words, fun hn => ?_, harch⟩
  rw [hat.index]
  omega

/-! ### A window of the outputs -/

theorem drop_map_range {α : Type} (f : Nat → α) (p n : Nat) :
    ((List.range (p + n)).map f).drop p = (List.range n).map fun k => f (p + k) := by
  rw [List.range_add, List.map_append, List.drop_left' (by simp), List.map_map]
  rfl

theorem take_drop_map_range {α : Type} (f : Nat → α) (p m n : Nat) :
    (((List.range (p + m + n)).map f).drop p).take m = (List.range m).map fun k => f (p + k) := by
  rw [Nat.add_assoc, drop_map_range, ← List.map_take, List.take_range, Nat.min_eq_left (Nat.le_add_right m n)]

/-- Settles O56: the samples are 32-bit outputs of the stream, so the clone is loaded with the raw words
`x (624 + p) ..`; it is then a unit at output 0 of the stream from there on, whose outputs are those that follow the
window. -/
theorem mtCloneContinuesTheOriginal : Obligations.MtCloneContinuesTheOriginal := by
  unfold Obligations.MtCloneContinuesTheOriginal
  intro E K E' x p n vs ys hidleE hreadyE hidxE hidleK hwordsE hx hgen hys
  obtain ⟨t, ht, -⟩ := (atOutput_zero hidleE hreadyE hidxE hwordsE).issueAll_mtNext hx (p + 624 + n)
  obtain ⟨-, -, rfl⟩ := SequenceResult.mk.inj
    (Host.Outcome.next.inj ((runPseudo_mtGen_ok_iff.mp hgen).symm.trans ht))
  rw [take_drop_map_range] at hys
  have hsample : ∀ i (h : i < 624), ys[i] = (temper (x (624 + p + i))).zeroExtend 64 := by
    intro i hi
    rw [← Vector.getElem_toList (by simpa using hi), List.getElem_of_eq hys, List.getElem_map, List.getElem_range,
      Nat.add_assoc]
  obtain ⟨⟨K', st, value⟩, hclone, rfl, hstatus, hstate⟩ := runPseudo_mtClone ys hidleK
  obtain rfl : st = 0 := hstatus.mpr fun i hi => hsample i hi ▸ toNat_zeroExtend_lt _
  obtain ⟨hidle', w, hw, harch⟩ := hstate rfl
  have hwords' : ∀ i (h : i < 624), K'.mtW[i] = x (624 + p + i) := by
    intro i hi
    rw [show K'.mtW = w from congrArg Architectural.mtW harch, hw i hi, hsample i hi, truncate_zeroExtend,
      untemper_temper]
  have hidx' : K'.mtIdx = 624 := congrArg Architectural.mtIdx harch
  have hat : AtOutput (fun j => x (624 + p + j)) 0 K' :=
    atOutput_zero hidle' (congrArg Architectural.mtRdy harch) hidx' hwords'
  obtain ⟨K'', hK'', -⟩ := hat.issueAll_mtNext (IsRawStream.shift hx (624 + p)) n
  refine ⟨K', K'', hclone, hwords', hidx', ?_⟩
  rw [runPseudo_mtGen_ok_iff, hK'', drop_map_range]
  simp only [Nat.add_assoc]

end Sys2Proof.Machine
